-- ==== Sys2Proof/Word.lean ====
section
/-! DEFINITION. The two word types of the block: the 32-bit command or host word (spec/00_scope.md R8, CMDW and
BUSW) and the 8-bit digit cell (spec/10_state.md R34). -/

namespace Sys2Proof

/-- A command word, or the data of one host access: 32 bits (R8: CMDW = BUSW = 32). -/
abbrev Word := BitVec 32

/-- One digit cell of DMEM: 8 bits (R34). -/
abbrev Byte := BitVec 8

end Sys2Proof
end

