-- ==== Sys2Proof/Config.lean ====
section
/-! DEFINITION. The open parameters of an instance of the block (spec/00_scope.md R8) and the constants derived
from them. They are arguments of the model: a state carries them, no step changes them. -/

namespace Sys2Proof

/-- The two open parameters of R8. `xlen` is XLEN, the width in bits of each big-number register; `dlen` is DLEN,
the number of digit cells of DMEM. -/
structure Config where
  xlen : Nat
  dlen : Nat
  deriving DecidableEq, Repr

namespace Config

/-- R8: XLEN is a multiple of 32 with 64 ≤ XLEN ≤ 8192, DLEN is a multiple of 4 with 4 ≤ DLEN ≤ 16384. -/
abbrev Legal (c : Config) : Prop :=
  (c.xlen % 32 = 0 ∧ 64 ≤ c.xlen ∧ c.xlen ≤ 8192) ∧ (c.dlen % 4 = 0 ∧ 4 ≤ c.dlen ∧ c.dlen ≤ 16384)

/-- R8: MAXN = 2^(XLEN−1) − 1, the greatest value a big-number register holds. -/
def maxN (c : Config) : Int := ((2 ^ (c.xlen - 1) : Nat) : Int) - 1

/-- R8: MINN = −2^(XLEN−1), the least value a big-number register holds. -/
def minN (c : Config) : Int := -((2 ^ (c.xlen - 1) : Nat) : Int)

/-- R57: the number of 32-bit words of one register that the instance implements. -/
def nWords (c : Config) : Nat := c.xlen / 32

/-- R58: the number of 32-bit words of the DMEM window that the instance implements. -/
def dWords (c : Config) : Nat := c.dlen / 4

/-- The instance `State.reset` is of: XLEN = 64, DLEN = 16, the one of spec/95_test_vectors.md.
DESIGN CHOICE (notes/assumptions/1.md): R8 leaves both open; every statement is about every state, hence about
every instance. -/
def vectors : Config := { xlen := 64, dlen := 16 }

end Config
end Sys2Proof
end

