-- ==== Sys2Proof/Syntax.lean ====
section
/-! DEFINITION. The six commands of the block (spec/30_encoding.md R84), one constructor per row of
spec/opcode_table.json. -/

namespace Sys2Proof

/-- A register operand: the index of one of N0 … N7 (spec/10_state.md R21, spec/30_encoding.md R83). -/
abbrev Reg := Fin 8

/-- The commands. Register fields are named as R13 names them; `width` is the 12-bit unsigned immediate WIDTH
(R82). -/
inductive Instr where
  /-- EGCD nD, nX, nY, nA, nB (R121). -/
  | egcd (rd rx ry ra rb : Reg)
  /-- COPRIME nA, nB (R124). -/
  | coprime (ra rb : Reg)
  /-- MODINV nD, nA, nB (R126). -/
  | modinv (rd ra rb : Reg)
  /-- MODEXP nD, nA, nB, nC (R141). -/
  | modexp (rd ra rb rc : Reg)
  /-- DENC nA, #w (R151). -/
  | denc (ra : Reg) (width : BitVec 12)
  /-- DDEC nD, #w (R154). -/
  | ddec (rd : Reg) (width : BitVec 12)
  deriving DecidableEq, Repr

end Sys2Proof
end

