-- ==== Sys2Proof/WellFormed.lean ====
section
/-! DEFINITION. Which terms of `Instr` are commands: the "extra constraint" column of spec/30_encoding.md R84. -/

namespace Sys2Proof

/-- R84, extra constraint: EGCD's three destinations are pairwise different, and WIDTH is not 0. A term that
fails this has no encoding: its bits are an illegal word (R87). -/
def Instr.wellFormed : Instr → Bool
  | .egcd rd rx ry _ _ => rd != rx && rd != ry && rx != ry
  | .coprime _ _ => true
  | .modinv _ _ _ => true
  | .modexp _ _ _ _ => true
  | .denc _ width => width != 0
  | .ddec _ width => width != 0

end Sys2Proof
end

