-- ==== Sys2Proof/Decode.lean ====
section
/-! DEFINITION. The command decoder (spec/30_encoding.md R81 to R87), total on every 32-bit word and rejecting by
name; after it the encoder, the opcode table as rows of mask and match, and the assembler syntax of R89. -/

namespace Sys2Proof

/-- R11: `w[hi:lo] = (w div 2^lo) mod 2^(hi−lo+1)`. -/
def bits (w : Word) (hi lo : Nat) : Nat := w.toNat / 2 ^ lo % 2 ^ (hi - lo + 1)

/-- R83: the 3-bit register field whose least significant bit is bit `lo`. -/
def regField (w : Word) (lo : Nat) : Reg := Fin.ofNat 8 (bits w (lo + 2) lo)

/-- R82: WIDTH = w[11:0], unsigned. -/
def widthField (w : Word) : BitVec 12 := BitVec.ofNat 12 (bits w 11 0)

/-- Why a word is illegal (R87). All four are the one fault ILLEGAL at commit (R191). -/
inductive IllegalWord where
  /-- An OPC value other than 0x01, 0x02, 0x03, 0x04, 0x10, 0x11. -/
  | unassignedOpcode
  /-- A recognised OPC with a non-zero bit in a fixed-zero field. -/
  | nonzeroFixedField
  /-- EGCD with two equal destination fields. -/
  | equalDestinations
  /-- DENC or DDEC with WIDTH = 0. -/
  | zeroWidth
  deriving DecidableEq, Repr

/-- OPC 0x01 (R85): w[8:0] = 0 and rd, rx, ry pairwise different. -/
def decodeEgcd (w : Word) : Except IllegalWord Instr :=
  if bits w 8 0 ≠ 0 then .error .nonzeroFixedField
  else if regField w 21 = regField w 18 ∨ regField w 21 = regField w 15 ∨ regField w 18 = regField w 15 then
    .error .equalDestinations
  else .ok (.egcd (regField w 21) (regField w 18) (regField w 15) (regField w 12) (regField w 9))

/-- OPC 0x02 (R85): w[23:15] = 0 and w[8:0] = 0. -/
def decodeCoprime (w : Word) : Except IllegalWord Instr :=
  if bits w 23 15 ≠ 0 ∨ bits w 8 0 ≠ 0 then .error .nonzeroFixedField
  else .ok (.coprime (regField w 12) (regField w 9))

/-- OPC 0x03 (R85): w[20:15] = 0 and w[8:0] = 0. -/
def decodeModinv (w : Word) : Except IllegalWord Instr :=
  if bits w 20 15 ≠ 0 ∨ bits w 8 0 ≠ 0 then .error .nonzeroFixedField
  else .ok (.modinv (regField w 21) (regField w 12) (regField w 9))

/-- OPC 0x04 (R85): w[20:15] = 0 and w[5:0] = 0. -/
def decodeModexp (w : Word) : Except IllegalWord Instr :=
  if bits w 20 15 ≠ 0 ∨ bits w 5 0 ≠ 0 then .error .nonzeroFixedField
  else .ok (.modexp (regField w 21) (regField w 12) (regField w 9) (regField w 6))

/-- OPC 0x10 (R85): w[23:15] = 0 and w[11:0] ≠ 0. -/
def decodeDenc (w : Word) : Except IllegalWord Instr :=
  if bits w 23 15 ≠ 0 then .error .nonzeroFixedField
  else if bits w 11 0 = 0 then .error .zeroWidth
  else .ok (.denc (regField w 12) (widthField w))

/-- OPC 0x11 (R85): w[20:12] = 0 and w[11:0] ≠ 0. -/
def decodeDdec (w : Word) : Except IllegalWord Instr :=
  if bits w 20 12 ≠ 0 then .error .nonzeroFixedField
  else if bits w 11 0 = 0 then .error .zeroWidth
  else .ok (.ddec (regField w 21) (widthField w))

/-- R85: the decoder. Every word is one of the six commands or is illegal (R80, R87). -/
def decode (w : Word) : Except IllegalWord Instr :=
  let opc := bits w 31 24
  if opc = 0x01 then decodeEgcd w
  else if opc = 0x02 then decodeCoprime w
  else if opc = 0x03 then decodeModinv w
  else if opc = 0x04 then decodeModexp w
  else if opc = 0x10 then decodeDenc w
  else if opc = 0x11 then decodeDdec w
  else .error .unassignedOpcode

/-- R81: the word of format R with the fields OPC, RD, RX, RY, RA, RB, RC and ZERO6 = 0. -/
def formatR (opc rd rx ry ra rb rc : Nat) : Word :=
  BitVec.ofNat 32
    (opc * 2 ^ 24 + rd * 2 ^ 21 + rx * 2 ^ 18 + ry * 2 ^ 15 + ra * 2 ^ 12 + rb * 2 ^ 9 + rc * 2 ^ 6)

/-- R81: the word of format D with the fields OPC, RD, RA, WIDTH and ZERO6H = 0. -/
def formatD (opc rd ra width : Nat) : Word :=
  BitVec.ofNat 32 (opc * 2 ^ 24 + rd * 2 ^ 21 + ra * 2 ^ 12 + width)

/-- R84: the command word of an instruction; a register field the command does not use is 0 (R81). -/
def encode : Instr → Word
  | .egcd rd rx ry ra rb => formatR 0x01 rd rx ry ra rb 0
  | .coprime ra rb => formatR 0x02 0 0 0 ra rb 0
  | .modinv rd ra rb => formatR 0x03 rd 0 0 ra rb 0
  | .modexp rd ra rb rc => formatR 0x04 rd 0 0 ra rb rc
  | .denc ra width => formatD 0x10 0 ra width.toNat
  | .ddec rd width => formatD 0x11 rd 0 width.toNat

/-- The instruction read from the low `nbits` bits of `w`, numbered as spec/opcode_table.json numbers them (bit 0
the least significant bit of the one 32-bit command word). A command is a word, not bytes in a memory, so no byte
order enters (R51: there is no fetch byte order). -/
def tableWord (nbits w : Nat) : Word := BitVec.ofNat 32 (w % 2 ^ nbits)

/-- The decoder on a word of the table's numbering; `none` where the word is illegal. -/
def decodeTableWord (nbits w : Nat) : Option Instr :=
  match decode (tableWord nbits w) with
  | .ok i => some i
  | .error _ => none

/-- One row of R84's table. -/
structure OpcodeRow where
  mnemonic : String
  mask : Word
  value : Word
  deriving DecidableEq, Repr

/-- The row of R84 whose command `i` is. -/
def opcodeRow : Instr → OpcodeRow
  | .egcd _ _ _ _ _ => ⟨"EGCD", 0xFF0001FF, 0x01000000⟩
  | .coprime _ _ => ⟨"COPRIME", 0xFFFF81FF, 0x02000000⟩
  | .modinv _ _ _ => ⟨"MODINV", 0xFF1F81FF, 0x03000000⟩
  | .modexp _ _ _ _ => ⟨"MODEXP", 0xFF1F803F, 0x04000000⟩
  | .denc _ _ => ⟨"DENC", 0xFFFF8000, 0x10000000⟩
  | .ddec _ _ => ⟨"DDEC", 0xFF1FF000, 0x11000000⟩

/-- The six rows of R84, in the table's order. -/
def opcodeRows : List OpcodeRow :=
  [opcodeRow (.egcd 0 0 0 0 0), opcodeRow (.coprime 0 0), opcodeRow (.modinv 0 0 0), opcodeRow (.modexp 0 0 0 0),
    opcodeRow (.denc 0 0), opcodeRow (.ddec 0 0)]

/-- R84: the word matches the row's bit pattern, `(w and mask) = match`. -/
def OpcodeRow.matchesWord (r : OpcodeRow) (w : Word) : Bool := w &&& r.mask == r.value

/-- R84's extra constraint of a row, read on the word's fields: EGCD's destinations pairwise different, WIDTH not
0 in DENC and DDEC. -/
def OpcodeRow.extra (r : OpcodeRow) (w : Word) : Bool :=
  if r.mnemonic = "EGCD" then
    regField w 21 != regField w 18 && regField w 21 != regField w 15 && regField w 18 != regField w 15
  else if r.mnemonic = "DENC" ∨ r.mnemonic = "DDEC" then bits w 11 0 != 0
  else true

/-- R89: a register is written n0 … n7. -/
def asmReg (r : Reg) : String := "n" ++ toString r.val

/-- R89: the assembler text of a command, destinations first. -/
def toAsm : Instr → String
  | .egcd rd rx ry ra rb =>
    "EGCD " ++ asmReg rd ++ ", " ++ asmReg rx ++ ", " ++ asmReg ry ++ ", " ++ asmReg ra ++ ", " ++ asmReg rb
  | .coprime ra rb => "COPRIME " ++ asmReg ra ++ ", " ++ asmReg rb
  | .modinv rd ra rb => "MODINV " ++ asmReg rd ++ ", " ++ asmReg ra ++ ", " ++ asmReg rb
  | .modexp rd ra rb rc => "MODEXP " ++ asmReg rd ++ ", " ++ asmReg ra ++ ", " ++ asmReg rb ++ ", " ++ asmReg rc
  | .denc ra width => "DENC " ++ asmReg ra ++ ", #" ++ toString width.toNat
  | .ddec rd width => "DDEC " ++ asmReg rd ++ ", #" ++ toString width.toNat

end Sys2Proof
end

