-- ==== Sys2Proof/Machine/State.lean ====
section
/-! DEFINITION. The state of the block (spec/10_state.md R20) as plain data, the accesses a host can make on its
port (spec/20_memory.md R50), the agents' turns (spec/00_scope.md R16), the ways a step can stop, and the reset
state (R38). -/

namespace Sys2Proof.Machine

/-- The six fault codes of spec/60_exceptions.md R190. A fault is NOT a stop of the machine: it is recorded in ERR
and ERRCODE by the commit step (R198), a next state. NONE is `Option.none` in `State.errcode`; the values 7 to 15
are never produced (R29). -/
inductive FaultCode where
  /-- 1: the word is not one of the six commands (R191). -/
  | illegal
  /-- 2: no modular inverse exists (R192). -/
  | arith
  /-- 3: a value or a cell does not fit a decimal digit field (R193). -/
  | encoding
  /-- 4: an operand lies outside the domain of the function (R194). -/
  | domain
  /-- 5: an exact result does not fit a register (R195). -/
  | range
  /-- 6: the digit field extends past the last cell of DMEM (R196). -/
  | dbounds
  deriving DecidableEq, Repr

/-- DMEM as its non-zero cells: (index, value) pairs with strictly rising indices; an unlisted cell reads as 0,
its reset value (R38). -/
abbrev Memory := List Host.Cell

/-- One transaction on the host port (R50). `size` is the access's width in bytes: the port carries size 4 at an
aligned offset 0x0000..0x7FFC only; what else an agent might try is refused (R52). -/
inductive HostAccess where
  /-- MemRead(addr, size). -/
  | read (addr size : Nat)
  /-- MemWrite(addr, size, v). -/
  | write (addr size : Nat) (v : Word)
  deriving DecidableEq, Repr

/-- Who moves in a step (R16): the host, by one access; the engine, by its commit; or the environment, by its reset
input (spec/70_reset_and_hazards.md R220). -/
inductive Turn where
  | host (a : HostAccess)
  | engine
  | reset
  deriving DecidableEq, Repr

/-- What an offset of the register map names (R56): a control register, word `j` of register `i`, word `w` of the
DMEM window, or a reserved offset. -/
inductive Loc where
  | cmd
  | status
  | errcode
  | inten
  | dptr
  | ctrl
  | param
  | nWord (i : Reg) (j : Nat)
  | dWord (w : Nat)
  | reserved
  deriving DecidableEq, Repr

/-- The state. All fields down to `cmdreg` are the tuple of R20 (with `cfg` the parameters of R8, which PARAM shows
and no step changes); `agenda` and `hostData` are the model's own (notes/assumptions/2.md and 3.md). -/
structure State where
  /-- XLEN and DLEN of the instance (R8, R33). -/
  cfg : Config
  /-- N0 … N7, signed integers in MINN..MAXN (R21). -/
  n : Vector Int 8
  /-- DMEM (R34). -/
  dmem : Memory
  /-- The digit pointer (R31). -/
  dptr : BitVec 16
  /-- The result flag of COPRIME (R25). -/
  cp : Bool
  /-- STATUS bit 0: an issued command has not committed (R28). -/
  busy : Bool
  /-- STATUS bit 1: the last issued command committed without fault (R28). -/
  done : Bool
  /-- STATUS bit 2: a command ended in a fault not yet cleared (R28). -/
  err : Bool
  /-- STATUS bit 4: a host write was rejected (R28). -/
  rej : Bool
  /-- ERRCODE (R29); `none` is code 0. -/
  errcode : Option FaultCode
  /-- INTEN bit 1, DONE_IE (R30). -/
  doneIe : Bool
  /-- INTEN bit 2, ERR_IE (R30). -/
  errIe : Bool
  /-- The command latch, read back at CMD (R27, R36). -/
  cmdreg : Word
  /-- The model's own: the turns to come, first one first; empty means the engine moves. -/
  agenda : List Turn
  /-- The model's own: the data the last host read returned. -/
  hostData : Word
  deriving DecidableEq, Repr

/-- Why a step stops with a fault: never. Every fault of the spec is a next state (R198, R206: "no state of the
block is stuck by itself"), so no constructor is needed. Safe. -/
inductive Fault where
  deriving DecidableEq, Repr

/-- Why a step is refused. -/
inductive Refusal where
  /-- Raised by an arm of `exec` whose instruction has no meaning yet; no arm is one. Safe. -/
  | notModelled (mnemonic : String)
  /-- Raised by a host turn whose access is not 4 bytes wide: the port has no such access (R50, R52, U22). Safe. -/
  | narrowAccess
  /-- Raised by a host turn whose offset is not a multiple of 4: the port cannot express it (R52, U22). Safe. -/
  | misalignedAccess
  /-- Raised by a host turn whose offset is above 0x7FFC: it is not the block's, and the platform decides what
  answers there (R59, U22). Safe. -/
  | outsideBlock
  deriving DecidableEq, Repr

/-- The outcome of a step. -/
abbrev Result := Host.Outcome State Fault Refusal

/-- R38: the reset state of an instance. Every component of R20 is zero; nothing is unspecified. The model's own
fields start empty (DESIGN CHOICE, notes/assumptions/2.md and 3.md). -/
def State.resetOf (cfg : Config) : State where
  cfg := cfg
  n := Vector.replicate 8 0
  dmem := []
  dptr := 0
  cp := false
  busy := false
  done := false
  err := false
  rej := false
  errcode := none
  doneIe := false
  errIe := false
  cmdreg := 0
  agenda := []
  hostData := 0

/-- R38, R220: the machine right after reset, for the instance of `Config.vectors` (notes/assumptions/1.md). -/
def State.reset : State := State.resetOf Config.vectors

end Sys2Proof.Machine
end

