-- ==== Sys2Proof/Machine/Arith.lean ====
section
/-! DEFINITION. The exact integer arithmetic of the commands (spec/40_command_execution.md R107 to R110): the
reference recurrence of the extended Euclidean algorithm (spec/41_modular_arithmetic.md R122), modular
exponentiation (spec/42_modexp.md R140, R143) and decimal digits (spec/43_decimal_codec.md R150, R151). -/

namespace Sys2Proof.Machine

/-- R10: sgn(v) is −1 when v < 0 and +1 when v ≥ 0. -/
def sgn (v : Int) : Int := if v < 0 then -1 else 1

/-- What `xgcd` returns (R120): the gcd and one pair of Bézout coefficients. -/
structure Bezout where
  g : Int
  x : Int
  y : Int
  deriving DecidableEq, Repr

/-- R122: the variables of the recurrence. The remainders are non-negative. -/
structure Euclid where
  r0 : Nat
  r1 : Nat
  s0 : Int
  s1 : Int
  t0 : Int
  t1 : Int
  deriving DecidableEq, Repr

/-- R122: one round, all six assignments simultaneous, with q = r0 div r1 (so r0 − q·r1 = r0 mod r1). -/
def euclidRound (e : Euclid) : Euclid :=
  let q := e.r0 / e.r1
  { r0 := e.r1, r1 := e.r0 % e.r1
    s0 := e.s1, s1 := e.s0 - (q : Int) * e.s1
    t0 := e.t1, t1 := e.t0 - (q : Int) * e.t1 }

/-- R122: rounds while r1 ≠ 0. The first argument bounds the number of rounds; r1 strictly decreases, so r1 + 1 of
them are enough (`Laws/Arith.lean`, `euclidLoop_done`). -/
def euclidLoop : Nat → Euclid → Euclid
  | 0, e => e
  | fuel + 1, e => if e.r1 = 0 then e else euclidLoop fuel (euclidRound e)

/-- R122: the start of the recurrence on the magnitudes A, B. -/
def euclidStart (A B : Nat) : Euclid := { r0 := A, r1 := B, s0 := 1, s1 := 0, t0 := 0, t1 := 1 }

/-- R122: the exact (g, x, y) of the block: the recurrence on |a|, |b|, signs restored at the end. -/
def xgcd (a b : Int) : Bezout :=
  let e := euclidLoop (b.natAbs + 1) (euclidStart a.natAbs b.natAbs)
  { g := e.r0, x := sgn a * e.s0, y := sgn b * e.t0 }

/-- R143: left-to-right square and multiply over the `L` low bits of `e`: the bits above bit 0 first, then square,
then multiply where bit 0 is 1. -/
def modexpBits (base n : Nat) : Nat → Nat → Nat
  | 0, _ => 1 % n
  | L + 1, e =>
    let acc := modexpBits base n L (e / 2)
    let sq := acc * acc % n
    if e % 2 = 1 then sq * base % n else sq

/-- R140: (b^e) mod n, computed by the reference algorithm of R143 (an exponent of XLEN bits leaves no other way to
evaluate it); `Laws/Arith.lean`, `modexp_eq`, proves that it is `b ^ e % n`. -/
def modexp (b e n : Nat) : Nat := modexpBits (b % n) n (e.log2 + 1) e

/-- R151: the digits of `v` in a field of width `w`: for i in 0..w−1, (v div 10^(w−1−i)) mod 10. -/
def digits (v w : Nat) : List Byte := (List.range w).map (fun i => BitVec.ofNat 8 (v / 10 ^ (w - 1 - i) % 10))

/-- R154: every cell of the field holds a decimal digit 0..9. -/
def allDigits (cells : List Byte) : Bool := cells.all (fun c => decide (c.toNat ≤ 9))

/-- R150: the integer a field spells, the cell at the lowest index the most significant digit. -/
def fieldValue (cells : List Byte) : Nat := cells.foldl (fun acc c => acc * 10 + c.toNat) 0

end Sys2Proof.Machine
end

