-- ==== Sys2Proof/Machine/Ops.lean ====
section
/-! DEFINITION. The named operations every other file is written over: DMEM cells, registers, issue, commit, fault
entry and its acknowledgement, rejection, and reset. -/

namespace Sys2Proof.Machine

namespace Memory

/-- The canonical form: indices strictly rising, no cell equal to what an unlisted cell reads as. -/
abbrev wf (m : Memory) : Prop := m.Pairwise (fun a b => a.1 < b.1) ∧ ∀ c ∈ m, c.2 ≠ 0

/-- Cell `k`; an unlisted cell is 0 (R38). -/
def read : Memory → Nat → Byte
  | [], _ => 0
  | (a, v) :: rest, k => if a = k then v else read rest k

/-- `cell k v` as a listing: nothing where `v` is what an unlisted cell reads as. -/
def cell (k : Nat) (v : Byte) : Memory := if v = 0 then [] else [(k, v)]

/-- Write cell `k`, keeping the canonical form. -/
def write : Memory → Nat → Byte → Memory
  | [], k, v => cell k v
  | (a, u) :: rest, k, v =>
    if k < a then cell k v ++ (a, u) :: rest
    else if k = a then cell k v ++ rest
    else (a, u) :: write rest k v

/-- Write consecutive cells from index `p` up. -/
def writeList : Memory → Nat → List Byte → Memory
  | m, _, [] => m
  | m, p, v :: vs => writeList (write m p v) (p + 1) vs

/-- The `w` consecutive cells from index `p` up. -/
def readList (m : Memory) (p w : Nat) : List Byte := (List.range w).map (fun i => read m (p + i))

end Memory

namespace State

/-- `N[r]` (R12): the one operation that reads a big-number register; N0 is an ordinary register (R21). -/
def getN (s : State) (r : Reg) : Int := s.n[r]

/-- `N[r] <- v` (R12): the one operation that writes a big-number register, always whole (R22). -/
def setN (s : State) (r : Reg) (v : Int) : State := { s with n := s.n.set r v }

/-- `DMEM[k]` (R12). -/
def getCell (s : State) (k : Nat) : Byte := Memory.read s.dmem k

/-- `DMEM[p] <- v0; DMEM[p+1] <- v1; …` (R12). -/
def setCells (s : State) (p : Nat) (vs : List Byte) : State := { s with dmem := Memory.writeList s.dmem p vs }

/-- `DPTR <- p` (R31): 16 bits. -/
def setDptr (s : State) (p : Nat) : State := { s with dptr := BitVec.ofNat 16 p }

/-- R101: the issue of command word `v`: CMDREG <- v, BUSY <- 1, DONE <- 0, nothing else. -/
def issue (s : State) (v : Word) : State := { s with cmdreg := v, busy := true, done := false }

/-- R102: the end of a fault-free commit: BUSY <- 0, DONE <- 1. -/
def complete (s : State) : State := { s with busy := false, done := true }

/-- R198, TAKING A FAULT: BUSY <- 0, ERR <- 1, ERRCODE <- code, nothing else. No pc, no vector, no mode. -/
def takeFault (s : State) (c : FaultCode) : State := { s with busy := false, err := true, errcode := some c }

/-- R200, THE RETURN FROM A FAULT: ERR <- 0 and ERRCODE <- 0, by the host's write of 1 to STATUS bit 2. -/
def ackFault (s : State) : State := { s with err := false, errcode := none }

/-- R60: a rejected host write changes nothing except REJ <- 1. -/
def reject (s : State) : State := { s with rej := true }

/-- R32, R220: reset and soft reset. The block's state takes its reset value; the instance's parameters stay, and so
do the turns to come and the data of the last host read, which are outside the block (notes/assumptions/2.md, 3.md). -/
def resetBlock (s : State) : State := { resetOf s.cfg with agenda := s.agenda, hostData := s.hostData }

end State

/-- R102: a command's result is committed: `s` already holds the command's assignments. -/
def commit (s : State) : Result := .next s.complete

/-- R102, R104: a command ends in a fault: nothing it assigned is kept. `s` is the state at issue. -/
def raise (c : FaultCode) (s : State) : Result := .next (s.takeFault c)

end Sys2Proof.Machine
end

