-- ==== Sys2Proof/Machine/Operands.lean ====
section
/-! DEFINITION. Operand forms: a register as the words of its two's complement pattern (spec/20_memory.md R51, R57),
the DMEM window's words (R58), and the digit field at DPTR (spec/43_decimal_codec.md R150). -/

namespace Sys2Proof.Machine

/-- R11, `sext_N(v)`: the N-bit two's complement word of `v`, as its unsigned value, v mod 2^N. R11 defines it in
−2^(N−1)..2^(N−1)−1 only; it is called on a register's value, which lies there, and by LOADN after its check (DESIGN
CHOICE outside, notes/assumptions/12.md). -/
def sext (n : Nat) (v : Int) : Nat := (v % ((2 ^ n : Nat) : Int)).toNat

/-- R11, `signed_N(u)`: the signed value of the N-bit word whose unsigned value is `u`. -/
def signed (n u : Nat) : Int := if u < 2 ^ (n - 1) then (u : Int) else (u : Int) - ((2 ^ n : Nat) : Int)

/-- Bits 32j+31 down to 32j of the word `u` (R51 (b)). -/
def wordAt (u j : Nat) : Word := BitVec.ofNat 32 (u / 2 ^ (32 * j))

/-- `u` with bits 32j+31..32j replaced by `v` (R57: "replaces exactly those 32 bits"). -/
def putWord (u j : Nat) (v : Word) : Nat :=
  u / 2 ^ (32 * (j + 1)) * 2 ^ (32 * (j + 1)) + v.toNat * 2 ^ (32 * j) + u % 2 ^ (32 * j)

namespace State

/-- R57: word `j` of register `i`, as the host reads it; 0 where the instance does not implement the word. -/
def readNWord (s : State) (i : Reg) (j : Nat) : Word :=
  if j < s.cfg.nWords then wordAt (sext s.cfg.xlen (s.getN i)) j else 0

/-- R57: the host's write of word `j` of register `i`: N[i] becomes the signed value of the new XLEN-bit word. -/
def writeNWord (s : State) (i : Reg) (j : Nat) (v : Word) : State :=
  s.setN i (signed s.cfg.xlen (putWord (sext s.cfg.xlen (s.getN i)) j v))

/-- R58: word `w` of the DMEM window, `{DMEM[4w+3], DMEM[4w+2], DMEM[4w+1], DMEM[4w]}`; 0 where the instance has no
such cells. -/
def readDWord (s : State) (w : Nat) : Word :=
  if w < s.cfg.dWords then
    s.getCell (4 * w + 3) ++ s.getCell (4 * w + 2) ++ s.getCell (4 * w + 1) ++ s.getCell (4 * w)
  else 0

end State

/-- R58: byte lane `k` of a word, `v[8k+7:8k]`. -/
def lane (v : Word) (k : Nat) : Byte := v.extractLsb' (8 * k) 8

namespace State

/-- R58: the host's write of word `w` of the DMEM window: DMEM[4w+k] <- v[8k+7:8k] for k = 0..3. -/
def writeDWord (s : State) (w : Nat) (v : Word) : State := s.setCells (4 * w) [lane v 0, lane v 1, lane v 2, lane v 3]

/-- R150: the effective address of DENC and DDEC is DPTR at issue. -/
def fieldStart (s : State) : Nat := s.dptr.toNat

/-- R151, R154: the field of `w` cells at DPTR does not fit in DMEM, p + w > DLEN. -/
def fieldOutside (s : State) (w : Nat) : Bool := decide (s.cfg.dlen < s.fieldStart + w)

/-- R150: the cells of the field of `w` cells at DPTR, lowest index first. -/
def field (s : State) (w : Nat) : List Byte := Memory.readList s.dmem s.fieldStart w

end State
end Sys2Proof.Machine
end

