-- ==== Sys2Proof/Machine/Codec.lean ====
section
/-! DEFINITION. The commands DENC and DDEC (spec/43_decimal_codec.md R151, R154). -/

namespace Sys2Proof.Machine

/-- R151, DENC: fault DBOUNDS if the field does not fit in DMEM, fault ENCODING if v < 0 or v ≥ 10^w, else the `w`
digits of v at DPTR, and DPTR <- p + w. -/
def execDenc (ra : Reg) (width : BitVec 12) (s : State) : Result :=
  let v := s.getN ra
  let w := width.toNat
  let p := s.fieldStart
  if s.fieldOutside w then raise .dbounds s
  else if v < 0 ∨ 10 ^ w ≤ v.toNat then raise .encoding s
  else commit ((s.setCells p (digits v.toNat w)).setDptr (p + w))

/-- R154, DDEC: fault DBOUNDS if the field does not fit in DMEM, fault ENCODING if a cell of it is above 9, fault
RANGE if its value is above MAXN, else N[rd] <- value and DPTR <- p + w. -/
def execDdec (rd : Reg) (width : BitVec 12) (s : State) : Result :=
  let w := width.toNat
  let p := s.fieldStart
  let val := fieldValue (s.field w)
  if s.fieldOutside w then raise .dbounds s
  else if allDigits (s.field w) = false then raise .encoding s
  else if s.cfg.maxN < val then raise .range s
  else commit ((s.setN rd val).setDptr (p + w))

end Sys2Proof.Machine
end

