-- ==== Sys2Proof/Machine/Modexp.lean ====
section
/-! DEFINITION. The command MODEXP (spec/42_modexp.md R141). -/

namespace Sys2Proof.Machine

/-- R141, MODEXP: fault DOMAIN if n ≤ 0 or e < 0 or b < 0, else N[rd] <- (b^e) mod n. -/
def execModexp (rd ra rb rc : Reg) (s : State) : Result :=
  let b := s.getN ra
  let e := s.getN rb
  let n := s.getN rc
  if n ≤ 0 ∨ e < 0 ∨ b < 0 then raise .domain s
  else commit (s.setN rd (modexp b.toNat e.toNat n.toNat))

end Sys2Proof.Machine
end

