-- ==== Sys2Proof/Machine/Flags.lean ====
section
/-! DEFINITION. Flags and control words: the result flag CP, and the host's views of STATUS, ERRCODE, INTEN, DPTR
and PARAM (spec/10_state.md R25 to R33), and the interrupt line (R37, spec/60_exceptions.md R199). -/

namespace Sys2Proof.Machine

/-- The code of a fault (R29, R190). -/
def FaultCode.code : FaultCode → Nat
  | .illegal => 1
  | .arith => 2
  | .encoding => 3
  | .domain => 4
  | .range => 5
  | .dbounds => 6

namespace State

/-- R25: CP <- b, by a COPRIME that commits without fault. -/
def setCp (s : State) (b : Bool) : State := { s with cp := b }

/-- R28: STATUS as the host reads it: BUSY, DONE, ERR, CP, REJ in bits 0 to 4, the rest 0. -/
def statusWord (s : State) : Word :=
  BitVec.ofNat 32 (s.busy.toNat + 2 * s.done.toNat + 4 * s.err.toNat + 8 * s.cp.toNat + 16 * s.rej.toNat)

/-- R28: a host write of `v` to STATUS clears exactly those of DONE, ERR, REJ whose written bit is 1; clearing ERR
also sets ERRCODE to 0. -/
def writeStatus (s : State) (v : Word) : State :=
  let s1 := if v.getLsbD 1 then { s with done := false } else s
  let s2 := if v.getLsbD 2 then s1.ackFault else s1
  if v.getLsbD 4 then { s2 with rej := false } else s2

/-- R29: ERRCODE as the host reads it. -/
def errcodeWord (s : State) : Word :=
  match s.errcode with
  | none => 0
  | some c => BitVec.ofNat 32 c.code

/-- R30: INTEN as the host reads it: DONE_IE in bit 1, ERR_IE in bit 2. -/
def intenWord (s : State) : Word := BitVec.ofNat 32 (2 * s.doneIe.toNat + 4 * s.errIe.toNat)

/-- R30: a host write of `v` to INTEN. -/
def writeInten (s : State) (v : Word) : State := { s with doneIe := v.getLsbD 1, errIe := v.getLsbD 2 }

/-- R31: DPTR as the host reads it. -/
def dptrWord (s : State) : Word := BitVec.ofNat 32 s.dptr.toNat

/-- R33: PARAM as the host reads it: XLEN in bits 15:0, DLEN in bits 31:16. -/
def paramWord (s : State) : Word := BitVec.ofNat 16 s.cfg.dlen ++ BitVec.ofNat 16 s.cfg.xlen

/-- R37, R199: the interrupt output, a function of the state. -/
def irq (s : State) : Bool := (s.done && s.doneIe) || (s.err && s.errIe)

end State
end Sys2Proof.Machine
end

