-- ==== Sys2Proof/Machine/Modular.lean ====
section
/-! DEFINITION. The commands EGCD, COPRIME and MODINV (spec/41_modular_arithmetic.md R121, R124, R126). Every source
is read from the state at issue; nothing assigned survives a `raise` (spec/40_command_execution.md R104). -/

namespace Sys2Proof.Machine

/-- R121, EGCD: fault RANGE if g > MAXN, else N[rd], N[rx], N[ry] <- g, x, y. -/
def execEgcd (rd rx ry ra rb : Reg) (s : State) : Result :=
  let e := xgcd (s.getN ra) (s.getN rb)
  if s.cfg.maxN < e.g then raise .range s
  else commit (((s.setN rd e.g).setN rx e.x).setN ry e.y)

/-- R124, COPRIME: CP <- 1 if g = 1 else 0; no register is written, no fault. -/
def execCoprime (ra rb : Reg) (s : State) : Result :=
  let e := xgcd (s.getN ra) (s.getN rb)
  commit (s.setCp (decide (e.g = 1)))

/-- R126, MODINV: fault DOMAIN if b ≤ 0, fault ARITH if gcd ≠ 1, else N[rd] <- x mod b (in [0, b), R109 (b)). -/
def execModinv (rd ra rb : Reg) (s : State) : Result :=
  let a := s.getN ra
  let b := s.getN rb
  if b ≤ 0 then raise .domain s
  else
    let e := xgcd a b
    if e.g ≠ 1 then raise .arith s
    else commit (s.setN rd (e.x % b))

end Sys2Proof.Machine
end

