-- ==== Sys2Proof/Machine/Dispatch.lean ====
section
/-! DEFINITION. What each command does at its commit (spec/40_command_execution.md R102, R103): one arm per
constructor of Instr, each one direct call of the command's meaning. -/

namespace Sys2Proof.Machine

def exec (i : Instr) (s : State) : Host.Outcome State Fault Refusal :=
  match i with
  | .egcd rd rx ry ra rb => Sys2Proof.Machine.execEgcd rd rx ry ra rb s
  | .coprime ra rb => Sys2Proof.Machine.execCoprime ra rb s
  | .modinv rd ra rb => Sys2Proof.Machine.execModinv rd ra rb s
  | .modexp rd ra rb rc => Sys2Proof.Machine.execModexp rd ra rb rc s
  | .denc ra width => Sys2Proof.Machine.execDenc ra width s
  | .ddec rd width => Sys2Proof.Machine.execDdec rd width s

end Sys2Proof.Machine
end

