-- ==== Sys2Proof/Machine/Port.lean ====
section
/-! DEFINITION. The host port (spec/20_memory.md R50 to R61): which offset names what, what a read returns and what
a write does, while idle, while a command is in progress and while a fault is pending. -/

namespace Sys2Proof.Machine

/-- R56: the register map, for an aligned offset 0x0000..0x7FFC. -/
def locOf (addr : Nat) : Loc :=
  if addr = 0x0000 then .cmd
  else if addr = 0x0004 then .status
  else if addr = 0x0008 then .errcode
  else if addr = 0x000C then .inten
  else if addr = 0x0010 then .dptr
  else if addr = 0x0014 then .ctrl
  else if addr = 0x0018 then .param
  else if addr < 0x1000 then .reserved
  else if addr < 0x3000 then .nWord (Fin.ofNat 8 ((addr - 0x1000) / 0x400)) ((addr - 0x1000) % 0x400 / 4)
  else if addr < 0x4000 then .reserved
  else .dWord ((addr - 0x4000) / 4)

/-- R57: the offset of word `j` of register `i`. -/
def nWordAddr (i : Reg) (j : Nat) : Nat := 0x1000 + 0x400 * i.val + 4 * j

/-- R58: the offset of word `w` of the DMEM window. -/
def dWordAddr (w : Nat) : Nat := 0x4000 + 4 * w

/-- R50, R52: what the port can express, and what it names; everything else is refused. -/
def portLoc (addr size : Nat) : Except Refusal Loc :=
  if size ≠ 4 then .error .narrowAccess
  else if addr % 4 ≠ 0 then .error .misalignedAccess
  else if 0x7FFC < addr then .error .outsideBlock
  else .ok (locOf addr)

namespace State

/-- What a host read of a location returns. Reads are never rejected (R61) and change nothing of the block (R54). -/
def readLoc (s : State) : Loc → Word
  | .cmd => s.cmdreg
  | .status => s.statusWord
  | .errcode => s.errcodeWord
  | .inten => s.intenWord
  | .dptr => s.dptrWord
  | .ctrl => 0
  | .param => s.paramWord
  | .nWord i j => s.readNWord i j
  | .dWord w => s.readDWord w
  | .reserved => 0

/-- R60 (a): what is performed when BUSY = 0 is rejected when BUSY = 1. -/
def unlessBusy (s s' : State) : State := if s.busy then s.reject else s'

/-- What a host write of `v` to a location does. CMD: R27, R60. STATUS: R28. INTEN: R30. DPTR: R31. CTRL: R32.
ERRCODE, PARAM and reserved offsets: ignored (R59). The windows: R57, R58; a word the instance does not implement is
ignored without REJ, also while BUSY = 1. -/
def writeLoc (s : State) (v : Word) : Loc → State
  | .cmd => if s.busy || s.err then s.reject else s.issue v
  | .status => s.writeStatus v
  | .errcode => s
  | .inten => s.writeInten v
  | .dptr => s.unlessBusy (s.setDptr (bits v 15 0))
  | .ctrl => if v.getLsbD 0 then s.resetBlock else s
  | .param => s
  | .nWord i j => if j < s.cfg.nWords then s.unlessBusy (s.writeNWord i j v) else s
  | .dWord w => if w < s.cfg.dWords then s.unlessBusy (s.writeDWord w v) else s
  | .reserved => s

end State

/-- One step of the host (R50): an atomic read, whose data the port returns, or an atomic write. -/
def hostTurn (a : HostAccess) (s : State) : Result :=
  match a with
  | .read addr size =>
    match portLoc addr size with
    | .ok loc => .next { s with hostData := s.readLoc loc }
    | .error r => .refused r
  | .write addr size v =>
    match portLoc addr size with
    | .ok loc => .next (s.writeLoc v loc)
    | .error r => .refused r

end Sys2Proof.Machine
end

