-- ==== Sys2Proof/Machine/Engine.lean ====
section
/-! DEFINITION. The engine's step (spec/40_command_execution.md R102, R103) and the turn of each agent
(spec/00_scope.md R16). -/

namespace Sys2Proof.Machine

/-- R102, R103: the commit of the command in CMDREG. An illegal word is the fault ILLEGAL, checked before anything
else (R191). -/
def commitCmd (s : State) : Result :=
  match decode s.cmdreg with
  | .ok i => exec i s
  | .error _ => raise .illegal s

/-- R102: the engine has exactly one step when BUSY = 1, the commit, and none when BUSY = 0. Having no step is
modelled as a turn that changes nothing (DESIGN CHOICE, notes/assumptions/4.md). -/
def engineTurn (s : State) : Result := if s.busy then commitCmd s else .next s

/-- R16: the turn of an agent. Reset is enabled in every state (R220). -/
def takeTurn (t : Turn) (s : State) : Result :=
  match t with
  | .host a => hostTurn a s
  | .engine => engineTurn s
  | .reset => .next s.resetBlock

/-- The turn that comes next: the first of the agenda; with an empty agenda the engine moves, so that a command in
progress commits (R105). -/
def nextTurn (s : State) : Turn := s.agenda.headD .engine

/-- The state with the turn that comes next taken off the agenda. -/
def State.popTurn (s : State) : State := { s with agenda := s.agenda.tail }

/-- The state in which the command word `v` is in progress and the engine moves next: the issue of R101, made from
any state (so a pending fault is acknowledged first, R200). -/
def State.engineToRun (s : State) (v : Word) : State :=
  { s.ackFault.issue v with agenda := .engine :: s.agenda }

end Sys2Proof.Machine
end

