-- ==== Sys2Proof/Machine/Step.lean ====
section
/-! DEFINITION. One step of the machine: the turn that comes next is taken (spec/20_memory.md R62: all steps form one
total order, each sees exactly the effects of those before it). -/

namespace Sys2Proof.Machine

def step (s : State) : Host.Outcome State Fault Refusal := takeTurn (nextTurn s) s.popTurn

/-- The block fetches nothing (spec/10_state.md R24): it runs the word latched in CMDREG while BUSY = 1. So the word
is put where the next step runs it: in CMDREG, in progress, with the engine to move (notes/assumptions/5.md). -/
def State.withFetchWord (s : State) (nbits w : Nat) : State := s.engineToRun (tableWord nbits w)

end Sys2Proof.Machine
end

