-- ==== Sys2Proof/Machine/HostSequences.lean ====
section
/-! DEFINITION. The host software of the source's pipeline as procedures over the port (spec/44_host_sequences.md
R165 to R184, spec/30_encoding.md R89, R90). A procedure does nothing but host turns and, while it waits, lets the
engine commit; it reads only what the port returns, and it knows XLEN, which PARAM shows (R9). What it computes is the
spec's; which registers it uses is the host's choice (R165), so they are arguments. -/

namespace Sys2Proof.Machine

/-- Why a procedure aborts: the source's two named errors and a block fault without a name in the source (R169), the
two ends of KEYGEN's sampling loop that return no key, and the operands that no host access can carry (DESIGN CHOICE,
notes/assumptions/8.md, 12.md, 13.md). -/
inductive HostAbort where
  /-- The source's EncodingError: fault code 3, DECODE_MSG's own check (R172), or a code point above MAXN (R170). -/
  | encodingError
  /-- The source's ArithmeticError: fault code 2. -/
  | arithmeticError
  /-- Another fault code, as read from ERRCODE. -/
  | blockFault (code : Nat)
  /-- KEYGEN_MAX_ATTEMPTS was reached (R179; the source gives the error no name, N22). -/
  | attemptsExhausted
  /-- The list of draws given to KEYGEN ended before a candidate was accepted. -/
  | drawsExhausted
  /-- LOADN of a value that no register holds (R144; DESIGN CHOICE, notes/assumptions/12.md). -/
  | unloadable
  /-- A start cell that DPTR cannot hold (R31; DESIGN CHOICE, notes/assumptions/12.md). -/
  | pointerOutOfRange
  /-- A block_len outside 1..4095 (R173; DESIGN CHOICE, notes/assumptions/13.md). -/
  | blockLenOutOfRange
  /-- The port refused an access: a procedure was told to reach a cell past the DMEM window (R56). -/
  | stopped (r : Refusal)
  deriving DecidableEq, Repr

/-- A host procedure: a computation over the block's state that returns a value or aborts. -/
abbrev HostM := EStateM HostAbort State

/-- One turn taken for a procedure. -/
def hostStep (t : Turn) : HostM Unit := fun s =>
  match takeTurn t s with
  | .next s' => .ok () s'
  | .fault f => nomatch f
  | .refused r => .error (.stopped r) s

/-- R89, `WR off, v`. -/
def writeReg (off : Nat) (v : Word) : HostM Unit := hostStep (.host (.write off 4 v))

/-- R89, `RD off`. -/
def readReg (off : Nat) : HostM Word := do
  hostStep (.host (.read off 4))
  return (← get).hostData

/-- R89, WAIT: read STATUS until BUSY reads 0. `polls` is how many reads the host makes before the engine commits:
no rule bounds it (R105), so it is an argument. -/
def waitIdle : Nat → HostM Word
  | 0 => do
    hostStep .engine
    readReg 0x0004
  | polls + 1 => do
    let status ← readReg 0x0004
    if status.getLsbD 0 then waitIdle polls else return status

/-- R169: the error a fault code is reported as. -/
def abortOf (code : Word) : HostAbort :=
  if code = 3 then .encodingError else if code = 2 then .arithmeticError else .blockFault code.toNat

/-- R169, RUN(word): issue, wait, and on ERR read the code, acknowledge and abort. -/
def runWord (word : Word) (polls : Nat) : HostM Unit := do
  writeReg 0x0000 word
  let status ← waitIdle polls
  if status.getLsbD 2 then
    let code ← readReg 0x0008
    writeReg 0x0004 0x00000004
    throw (abortOf code)

/-- RUN of a command. -/
def runCmd (i : Instr) (polls : Nat) : HostM Unit := runWord (encode i) polls

/-- The writes of the words `js` of the XLEN-bit word `u` to register `i` (R57). -/
def loadWords (i : Reg) (u : Nat) : List Nat → HostM Unit
  | [] => return ()
  | j :: js => do
    writeReg (nWordAddr i j) (wordAt u j)
    loadWords i u js

/-- R89, LOADN ni, v: the XLEN/32 writes that store sext_XLEN(v) in N_i. R11 defines sext_XLEN in MINN..MAXN only, and a
value outside cannot be loaded (R144): the procedure then aborts before any write (DESIGN CHOICE: no rule says what
LOADN does there, notes/assumptions/12.md). -/
def loadN (i : Reg) (v : Int) : HostM Unit := do
  let s ← get
  if v < s.cfg.minN ∨ s.cfg.maxN < v then throw .unloadable
  loadWords i (sext s.cfg.xlen v) (List.range s.cfg.nWords)

/-- The reads of the words `js` of register `i`, as the unsigned value they spell. -/
def fetchWords (i : Reg) : List Nat → HostM Nat
  | [] => return 0
  | j :: js => do
    let w ← readReg (nWordAddr i j)
    let rest ← fetchWords i js
    return w.toNat * 2 ^ (32 * j) + rest

/-- R89, READN ni: the XLEN/32 reads that fetch N_i. -/
def fetchN (i : Reg) : HostM Int := do
  let s ← get
  let u ← fetchWords i (List.range s.cfg.nWords)
  return signed s.cfg.xlen u

/-- DPTR <- p, by the host (R31). DPTR holds 0..65535; for a greater `p` the procedure aborts before the write, since
the write would drop bits of it (DESIGN CHOICE, notes/assumptions/12.md). -/
def pointTo (p : Nat) : HostM Unit := do
  if 65535 < p then throw .pointerOutOfRange
  writeReg 0x0010 (BitVec.ofNat 32 p)

/-- The registers a pipeline uses, as the host chooses them (R165); the defaults are those of program P2 of
spec/95_test_vectors.md (DESIGN CHOICE, notes/assumptions/8.md). -/
structure Layout where
  code : Reg := 3
  block : Reg := 4
  exponent : Reg := 5
  modulus : Reg := 6
  result : Reg := 7
  deriving DecidableEq, Repr

/-- The registers of a cipher run that must differ: what is loaded stays loaded over every block (R177). -/
abbrev Layout.distinct (l : Layout) : Prop :=
  l.modulus ≠ l.exponent ∧ l.block ≠ l.exponent ∧ l.block ≠ l.modulus ∧ l.result ≠ l.exponent ∧ l.result ≠ l.modulus

/-- R170, ENCODE_CHAR(c): `LOADN nA, c`; `RUN(DENC nA, #3)`. A code point above MAXN, which LOADN cannot load, is above
999 and aborts with EncodingError as the rule says for every such c. -/
def encodeChar (nA : Reg) (polls : Nat) (c : Nat) : HostM Unit := do
  let s ← get
  if s.cfg.maxN < c then throw .encodingError
  loadN nA c
  runCmd (.denc nA 3) polls

/-- ENCODE_CHAR for each character in order. -/
def encodeChars (nA : Reg) (polls : Nat) : List Nat → HostM Unit
  | [] => return ()
  | c :: cs => do
    encodeChar nA polls c
    encodeChars nA polls cs

/-- R171, ENCODE_MSG(text, p0): a text is the list of its code points (R166). -/
def encodeMsg (nA : Reg) (polls : Nat) (text : List Nat) (p0 : Nat) : HostM Unit := do
  pointTo p0
  encodeChars nA polls text

/-- `count` successive DDECs of one width, each value read out. -/
def decodeFields (nD : Reg) (polls : Nat) (width : BitVec 12) : Nat → HostM (List Int)
  | 0 => return []
  | count + 1 => do
    runCmd (.ddec nD width) polls
    let v ← fetchN nD
    let rest ← decodeFields nD polls width count
    return v :: rest

/-- R172: the host's check of the digit grouping. -/
def checkGrouping (len paddingCount : Nat) : HostM Unit := do
  if len < paddingCount ∨ (len - paddingCount) % 3 ≠ 0 then throw .encodingError

/-- R172, DECODE_MSG(len, padding_count, p0). -/
def decodeMsg (nD : Reg) (polls : Nat) (len paddingCount p0 : Nat) : HostM (List Int) := do
  checkGrouping len paddingCount
  pointTo p0
  decodeFields nD polls 3 ((len - paddingCount) / 3)

/-- R173: the host's check of block_len. block_len = 0 has no meaning in the source and WIDTH holds 1..4095, and no rule
says what CHUNK and REASSEMBLE do outside: they abort before any access (DESIGN CHOICE, notes/assumptions/13.md). -/
def checkBlockLen (blockLen : Nat) : HostM Unit := do
  if blockLen < 1 ∨ 4095 < blockLen then throw .blockLenOutOfRange

/-- R173: num_blocks = ceil(total / block_len), for block_len ≥ 1, which `checkBlockLen` ensures. -/
def numBlocks (total blockLen : Nat) : Nat := (total + blockLen - 1) / blockLen

/-- R173: padding_count = num_blocks·block_len − total. -/
def paddingCount (total blockLen : Nat) : Nat := numBlocks total blockLen * blockLen - total

/-- `v` with byte lane `k` replaced (R58). -/
def putLane (v : Word) (k : Nat) (d : Byte) : Word :=
  BitVec.ofNat 32 (v.toNat / 2 ^ (8 * (k + 1)) * 2 ^ (8 * (k + 1)) + d.toNat * 2 ^ (8 * k) + v.toNat % 2 ^ (8 * k))

/-- R58, R227: one cell changed by the host: read the word, replace the lane, write it back. -/
def pokeCell (k : Nat) (d : Byte) : HostM Unit := do
  let v ← readReg (dWordAddr (k / 4))
  writeReg (dWordAddr (k / 4)) (putLane v (k % 4) d)

/-- Consecutive cells changed by the host. -/
def pokeCells : Nat → List Byte → HostM Unit
  | _, [] => return ()
  | k, d :: ds => do
    pokeCell k d
    pokeCells (k + 1) ds

/-- R174: the padding digits. `pads i` is the i-th: a draw the host makes (R39, U4), so an argument. -/
def paddingDigits (total blockLen : Nat) (pads : Nat → Byte) : List Byte :=
  (List.range (paddingCount total blockLen)).map pads

/-- R174, CHUNK: the padding digits, then one DDEC per block. -/
def chunk (nB : Reg) (polls : Nat) (total blockLen p0 : Nat) (pads : Nat → Byte) : HostM (List Int) := do
  checkBlockLen blockLen
  pokeCells (p0 + total) (paddingDigits total blockLen pads)
  pointTo p0
  decodeFields nB polls (BitVec.ofNat 12 blockLen) (numBlocks total blockLen)

/-- R176, one DENC per value. -/
def encodeFields (nV : Reg) (polls : Nat) (width : BitVec 12) : List Int → HostM Unit
  | [] => return ()
  | v :: vs => do
    loadN nV v
    runCmd (.denc nV width) polls
    encodeFields nV polls width vs

/-- R176, REASSEMBLE(values, block_len, p0). -/
def reassemble (nV : Reg) (polls : Nat) (values : List Int) (blockLen p0 : Nat) : HostM Unit := do
  checkBlockLen blockLen
  pointTo p0
  encodeFields nV polls (BitVec.ofNat 12 blockLen) values

/-- R177: one MODEXP per element, in order, each independent of the others. -/
def cipherBlocks (l : Layout) (polls : Nat) : List Int → HostM (List Int)
  | [] => return []
  | b :: bs => do
    loadN l.block b
    runCmd (.modexp l.result l.block l.exponent l.modulus) polls
    let c ← fetchN l.result
    let cs ← cipherBlocks l polls bs
    return c :: cs

/-- R167: a key is a modulus and an exponent, e in a public key and d in a private one. -/
structure Key where
  modulus : Int
  exponent : Int
  deriving DecidableEq, Repr

/-- R177, ENCRYPT and DECRYPT over a sequence of blocks: they differ only in the key. -/
def cipher (l : Layout) (polls : Nat) (key : Key) (blocks : List Int) : HostM (List Int) := do
  loadN l.modulus key.modulus
  loadN l.exponent key.exponent
  cipherBlocks l polls blocks

/-- R178, the public operation `encrypt`: ENCODE_MSG, CHUNK, ENCRYPT. It returns the ciphertext and the padding
count. -/
def encryptText (l : Layout) (polls : Nat) (text : List Nat) (key : Key) (blockLen p0 : Nat) (pads : Nat → Byte) :
    HostM (List Int × Nat) := do
  encodeMsg l.code polls text p0
  let blocks ← chunk l.block polls (3 * text.length) blockLen p0 pads
  let ciphertext ← cipher l polls key blocks
  return (ciphertext, paddingCount (3 * text.length) blockLen)

/-- R178, the public operation `decrypt`: DECRYPT, REASSEMBLE, DECODE_MSG with len = (number of
ciphertexts)·block_len. -/
def decryptText (l : Layout) (polls : Nat) (ciphertext : List Int) (key : Key) (padding blockLen p0 : Nat) :
    HostM (List Int) := do
  let values ← cipher l polls key ciphertext
  reassemble l.block polls values blockLen p0
  decodeMsg l.code polls (ciphertext.length * blockLen) padding p0

/-- R179, the rejection-sampling loop of KEYGEN over the candidate exponents `draws` (U3: inputs), with φ in nP.
`maxAttempts` and `rejectDegenerate` are the open parameters of R180. -/
def sampleExponent (nE nP : Reg) (polls : Nat) (phi : Int) (maxAttempts : Option Nat) (rejectDegenerate : Bool) :
    List Int → Nat → HostM Int
  | [], _ => throw .drawsExhausted
  | e :: draws, attempts => do
    loadN nE e
    runCmd (.coprime nE nP) polls
    let status ← readReg 0x0004
    if status.getLsbD 3 && !(rejectDegenerate && (e == 1 || e == phi - 1)) then return e
    else if maxAttempts = some (attempts + 1) then throw .attemptsExhausted
    else sampleExponent nE nP polls phi maxAttempts rejectDegenerate draws (attempts + 1)

/-- R179, KEYGEN on two primes p, q (inputs, U2), with e in nE, φ in nP and d in nD. It returns the public and the
private key, and clears the register that held φ. n ≤ MAXN is the rule's requirement on its inputs: n is not loaded
here, and a φ that cannot be loaded aborts (notes/assumptions/12.md). -/
def keygen (nD nE nP : Reg) (polls : Nat) (p q : Int) (draws : List Int) (maxAttempts : Option Nat)
    (rejectDegenerate : Bool) : HostM (Key × Key) := do
  let phi := (p - 1) * (q - 1)
  loadN nP phi
  let e ← sampleExponent nE nP polls phi maxAttempts rejectDegenerate draws 0
  runCmd (.modinv nD nE nP) polls
  let d ← fetchN nD
  loadN nP 0
  return ({ modulus := p * q, exponent := e }, { modulus := p * q, exponent := d })

/-- The DigitString of a text (R168, R171): each code point as 3 digits. -/
def digitString (text : List Nat) : List Byte := text.flatMap (fun c => digits c 3)

/-- R174: the first `count` slices of `w` digits each, in order. -/
def slices (w : Nat) : Nat → List Byte → List (List Byte)
  | 0, _ => []
  | count + 1, ds => ds.take w :: slices w count (ds.drop w)

/-- R173, R174: the blocks of a text: its DigitString with the padding digits, in slices of block_len. -/
def blocksOf (text : List Nat) (blockLen : Nat) (pads : Nat → Byte) : List (List Byte) :=
  slices blockLen (numBlocks (digitString text).length blockLen)
    (digitString text ++ paddingDigits (digitString text).length blockLen pads)

/-! R184: a message of any length in pieces. The host carries the digits; DMEM holds one field at a time, at p0. -/

/-- R58: one cell, read by the host. -/
def peekCell (k : Nat) : HostM Byte := do
  let v ← readReg (dWordAddr (k / 4))
  return lane v (k % 4)

/-- `count` consecutive cells from `k` up, read by the host. -/
def peekCells : Nat → Nat → HostM (List Byte)
  | _, 0 => return []
  | k, count + 1 => do
    let d ← peekCell k
    let ds ← peekCells (k + 1) count
    return d :: ds

/-- The DigitString of a text, one character at a time: ENCODE_MSG of it at p0, and its three digits copied out. -/
def encodePieces (nA : Reg) (polls p0 : Nat) : List Nat → HostM (List Byte)
  | [] => return []
  | c :: cs => do
    encodeMsg nA polls [c] p0
    let ds ← peekCells p0 3
    let rest ← encodePieces nA polls p0 cs
    return ds ++ rest

/-- The integers that fields of digits spell, one field at a time: written at p0 and read by one DDEC. -/
def decodePieces (nD : Reg) (polls : Nat) (width : BitVec 12) (p0 : Nat) : List (List Byte) → HostM (List Int)
  | [] => return []
  | ds :: rest => do
    pokeCells p0 ds
    pointTo p0
    let vs ← decodeFields nD polls width 1
    let vs' ← decodePieces nD polls width p0 rest
    return vs ++ vs'

/-- The digits of values, one value at a time: REASSEMBLE of it at p0, and its block_len digits copied out. -/
def reassemblePieces (nV : Reg) (polls blockLen p0 : Nat) : List Int → HostM (List Byte)
  | [] => return []
  | v :: vs => do
    reassemble nV polls [v] blockLen p0
    let ds ← peekCells p0 blockLen
    let rest ← reassemblePieces nV polls blockLen p0 vs
    return ds ++ rest

/-- R178, `encrypt`, for a message of any length (R184). -/
def encryptPieces (l : Layout) (polls : Nat) (text : List Nat) (key : Key) (blockLen p0 : Nat) (pads : Nat → Byte) :
    HostM (List Int × Nat) := do
  checkBlockLen blockLen
  let ds ← encodePieces l.code polls p0 text
  let padded := ds ++ paddingDigits ds.length blockLen pads
  let blocks ← decodePieces l.block polls (BitVec.ofNat 12 blockLen) p0
    (slices blockLen (numBlocks ds.length blockLen) padded)
  let ciphertext ← cipher l polls key blocks
  return (ciphertext, paddingCount ds.length blockLen)

/-- R178, `decrypt`, for a message of any length (R184). -/
def decryptPieces (l : Layout) (polls : Nat) (ciphertext : List Int) (key : Key) (padding blockLen p0 : Nat) :
    HostM (List Int) := do
  checkBlockLen blockLen
  let values ← cipher l polls key ciphertext
  let ds ← reassemblePieces l.block polls blockLen p0 values
  checkGrouping ds.length padding
  decodePieces l.code polls 3 p0 (slices 3 ((ds.length - padding) / 3) ds)

end Sys2Proof.Machine
end

