-- ==== Sys2Proof/Safety.lean ====
section
/-! DEFINITION. What claims are stated in: the invariant of every reachable state (spec/10_state.md R20), which
accesses the port can express (spec/20_memory.md R50), and what makes a key valid (spec/44_host_sequences.md
R167). -/

namespace Sys2Proof.Machine

/-- R20: what holds in every reachable state, with DMEM's canonical form and the instance's parameters. -/
structure State.Inv (s : State) : Prop where
  /-- R8: the parameters are legal. -/
  legal : s.cfg.Legal
  /-- R20: MINN ≤ N[i] ≤ MAXN. -/
  inRange : ∀ r : Reg, s.cfg.minN ≤ s.getN r ∧ s.getN r ≤ s.cfg.maxN
  /-- DMEM is in canonical form. -/
  cellsWf : Memory.wf s.dmem
  /-- R34: cells exist at the indices 0..DLEN−1 only. -/
  cellsInside : ∀ c ∈ s.dmem, c.1 < s.cfg.dlen
  /-- R20: BUSY = 1 implies DONE = 0 and ERR = 0. -/
  busyAlone : s.busy = true → s.done = false ∧ s.err = false
  /-- R20: ERR = 1 if and only if ERRCODE ≠ 0. -/
  errHasCode : s.err = true ↔ s.errcode ≠ none
  /-- R20: DONE = 1 implies ERR = 0. -/
  doneNotErr : s.done = true → s.err = false

/-- R50: the accesses that exist on the port. -/
def HostAccess.expressible : HostAccess → Bool
  | .read addr size => size == 4 && addr % 4 == 0 && addr ≤ 0x7FFC
  | .write addr size _ => size == 4 && addr % 4 == 0 && addr ≤ 0x7FFC

/-- A turn that exists: the host's is an access of the port. -/
def Turn.expressible : Turn → Bool
  | .host a => a.expressible
  | .engine => true
  | .reset => true

/-- R206: a state is a successful end of a command when no fault is pending and nothing is in progress. -/
def State.succeeded (s : State) : Bool := !s.busy && !s.err && s.done

/-- R38: every component of R20 has its reset value. -/
structure State.Zeroed (s : State) : Prop where
  regs : ∀ r : Reg, s.getN r = 0
  cells : ∀ k : Nat, s.getCell k = 0
  pointer : s.dptr = 0
  flag : s.cp = false
  status : s.busy = false ∧ s.done = false ∧ s.err = false ∧ s.rej = false
  code : s.errcode = none
  enables : s.doneIe = false ∧ s.errIe = false
  latch : s.cmdreg = 0

/-- R22: the registers a command reads. -/
def readsN : Instr → List Reg
  | .egcd _ _ _ ra rb => [ra, rb]
  | .coprime ra rb => [ra, rb]
  | .modinv _ ra rb => [ra, rb]
  | .modexp _ ra rb rc => [ra, rb, rc]
  | .denc ra _ => [ra]
  | .ddec _ _ => []

/-- R22: the registers a command writes. -/
def writesN : Instr → List Reg
  | .egcd rd rx ry _ _ => [rd, rx, ry]
  | .coprime _ _ => []
  | .modinv rd _ _ => [rd]
  | .modexp rd _ _ _ => [rd]
  | .denc _ _ => []
  | .ddec rd _ => [rd]

/-- R31: DENC and DDEC read and write DPTR; no other command does. -/
def usesDptr : Instr → Bool
  | .egcd _ _ _ _ _ => false
  | .coprime _ _ => false
  | .modinv _ _ _ => false
  | .modexp _ _ _ _ => false
  | .denc _ _ => true
  | .ddec _ _ => true

/-- R53: how many cells from DPTR up a command reads: WIDTH in DDEC. -/
def readsCells : Instr → Nat
  | .egcd _ _ _ _ _ => 0
  | .coprime _ _ => 0
  | .modinv _ _ _ => 0
  | .modexp _ _ _ _ => 0
  | .denc _ _ => 0
  | .ddec _ width => width.toNat

/-- R53: how many cells from DPTR up a command stores to: WIDTH in DENC. -/
def storesCells : Instr → Nat
  | .egcd _ _ _ _ _ => 0
  | .coprime _ _ => 0
  | .modinv _ _ _ => 0
  | .modexp _ _ _ _ => 0
  | .denc _ width => width.toNat
  | .ddec _ _ => 0

/-- R102: what a commit from `s` to `t` does to BUSY, DONE, ERR and ERRCODE: it completes, or it faults. -/
def CommitStatus (s t : State) : Prop :=
  t.busy = false ∧
    ((t.done = true ∧ t.err = s.err ∧ t.errcode = s.errcode) ∨
      (t.done = s.done ∧ t.err = true ∧ t.errcode ≠ none))

/-- What no command touches: REJ, INTEN, CMDREG, the parameters, and what is outside the block. -/
def Untouched (s t : State) : Prop :=
  t.rej = s.rej ∧ t.doneIe = s.doneIe ∧ t.errIe = s.errIe ∧ t.cmdreg = s.cmdreg ∧ t.cfg = s.cfg ∧
    t.agenda = s.agenda ∧ t.hostData = s.hostData

/-- R60: the writes that are rejected: (a) BUSY = 1 and CMD, DPTR, an implemented word of the N window or of the
DMEM window; (b) BUSY = 0, ERR = 1 and CMD. -/
def State.rejectsWrite (s : State) (addr : Nat) : Prop :=
  (s.busy = true ∧
    (addr = 0x0000 ∨ addr = 0x0010 ∨ (∃ i j, j < s.cfg.nWords ∧ addr = nWordAddr i j) ∨
      ∃ w, w < s.cfg.dWords ∧ addr = dWordAddr w)) ∨
  (s.busy = false ∧ s.err = true ∧ addr = 0x0000)

/-- R154: the field of `w` cells at DPTR holds decimal digits only. -/
abbrev State.fieldDecimal (s : State) (w : Nat) : Prop := ∀ i, i < w → (s.getCell (s.fieldStart + i)).toNat ≤ 9

/-- R150: val = Σ_{i=0..w−1} DMEM[p+i] · 10^(w−1−i), the integer the field of `w` cells at DPTR spells. -/
def State.fieldSum (s : State) (w : Nat) : Nat :=
  ∑ i ∈ Finset.range w, (s.getCell (s.fieldStart + i)).toNat * 10 ^ (w - 1 - i)

/-- R167: n = p·q, φ = (p−1)(q−1), gcd(e, φ) = 1, e·d ≡ 1 (mod φ), d ∈ [0, φ). -/
structure KeyInvariant (p q n e d : Nat) : Prop where
  primeP : p.Prime
  primeQ : q.Prime
  modulus : n = p * q
  coprime : Nat.Coprime e ((p - 1) * (q - 1))
  inverse : e * d ≡ 1 [MOD (p - 1) * (q - 1)]
  below : d < (p - 1) * (q - 1)

end Sys2Proof.Machine
end

