-- ==== Sys2Proof/Certificates/Slice0/Obligations.lean ====
section
/-! DEFINITION. The statements about the block, each a rule of the spec or resting on one. Every statement is about
every state, and a state carries the instance's XLEN and DLEN, so each holds for every instance. -/

open Sys2Proof Sys2Proof.Machine

/-! ### Encoding -/

/-- Decoding the word of a well-formed command gives the command back, with every operand at every value (R81, R84,
R85): no bit of an encoding is dropped. -/
def Obligations.DecodeOfEncode : Prop := ∀ i : Instr, i.wellFormed = true → decode (encode i) = .ok i

/-- Each command has one word: what decodes is well formed and encodes to the word it was read from (R80, R87: no
reserved bit is tolerated). -/
def Obligations.EncodeOfDecode : Prop :=
  ∀ (w : Word) (i : Instr), decode w = .ok i → i.wellFormed = true ∧ encode i = w

/-- R84: a word is the command of a row if and only if (w and mask) = match and the row's extra constraint holds. -/
def Obligations.DecoderMatchesOpcodeTable : Prop :=
  ∀ (w : Word) (r : OpcodeRow), r ∈ opcodeRows →
    ((∃ i, decode w = .ok i ∧ opcodeRow i = r) ↔ (r.matchesWord w = true ∧ r.extra w = true))

/-- R86: the eleven example encodings, with their assembler text (R89). -/
def Obligations.SpecExampleWordsDecode : Prop :=
  (decode 0x01053800 = .ok (.egcd 0 1 2 3 4) ∧ toAsm (.egcd 0 1 2 3 4) = "EGCD n0, n1, n2, n3, n4") ∧
  (decode 0x01BB9400 = .ok (.egcd 5 6 7 1 2) ∧ toAsm (.egcd 5 6 7 1 2) = "EGCD n5, n6, n7, n1, n2") ∧
  (decode 0x02001400 = .ok (.coprime 1 2) ∧ toAsm (.coprime 1 2) = "COPRIME n1, n2") ∧
  (decode 0x03001400 = .ok (.modinv 0 1 2) ∧ toAsm (.modinv 0 1 2) = "MODINV n0, n1, n2") ∧
  (decode 0x04E04B80 = .ok (.modexp 7 4 5 6) ∧ toAsm (.modexp 7 4 5 6) = "MODEXP n7, n4, n5, n6") ∧
  (decode 0x04807180 = .ok (.modexp 4 7 0 6) ∧ toAsm (.modexp 4 7 0 6) = "MODEXP n4, n7, n0, n6") ∧
  (decode 0x10003003 = .ok (.denc 3 3) ∧ toAsm (.denc 3 3) = "DENC n3, #3") ∧
  (decode 0x10004004 = .ok (.denc 4 4) ∧ toAsm (.denc 4 4) = "DENC n4, #4") ∧
  (decode 0x11800003 = .ok (.ddec 4 3) ∧ toAsm (.ddec 4 3) = "DDEC n4, #3") ∧
  (decode 0x11800004 = .ok (.ddec 4 4) ∧ toAsm (.ddec 4 4) = "DDEC n4, #4") ∧
  (decode 0x10000FFF = .ok (.denc 0 4095) ∧ toAsm (.denc 0 4095) = "DENC n0, #4095")

/-! ### Life cycle of a command -/

/-- A step takes the turn that comes next, and nothing is added: a host access is that access (R50), reset is reset
(R220), and the engine with a command in progress runs the decoded command, or takes the fault ILLEGAL on an illegal
word (R102, R103). The agenda, and that the engine moves on an empty one, are the model's own (notes/assumptions/2.md);
so is the idle engine's turn, which changes nothing (notes/assumptions/4.md). -/
def Obligations.StepRunsDecodedCommand : Prop :=
  ∀ s : State,
    s.popTurn = { s with agenda := s.agenda.tail } ∧
    (s.agenda = [] → nextTurn s = .engine) ∧ (∀ t rest, s.agenda = t :: rest → nextTurn s = t) ∧
    (∀ a, nextTurn s = .host a → step s = hostTurn a s.popTurn) ∧
    (nextTurn s = .reset → step s = .next s.popTurn.resetBlock) ∧
    (nextTurn s = .engine → s.busy = true →
      (∀ i, decode s.cmdreg = .ok i → step s = exec i s.popTurn) ∧
      (∀ why, decode s.cmdreg = .error why → step s = .next (s.popTurn.takeFault .illegal))) ∧
    (nextTurn s = .engine → s.busy = false → step s = .next s.popTurn)

/-- R101: a host write to CMD issues the word when BUSY = 0 and ERR = 0, and is rejected otherwise; legal and illegal
words alike. -/
def Obligations.IssueOrReject : Prop :=
  ∀ (s : State) (v : Word),
    (s.busy = false ∧ s.err = false →
      hostTurn (.write 0x0000 4 v) s = .next { s with cmdreg := v, busy := true, done := false }) ∧
    (s.busy = true ∨ s.err = true → hostTurn (.write 0x0000 4 v) s = .next { s with rej := true })

/-- The commit of a command in progress always happens, and either completes (BUSY 0, DONE 1) or faults (BUSY 0,
ERR 1, a code in ERRCODE), whatever the word (R102). -/
def Obligations.CommitCompletesOrFaults : Prop :=
  ∀ s : State, s.busy = true → ∃ t, engineTurn s = .next t ∧ CommitStatus s t ∧ Untouched s t

/-- R104: a command that faults leaves N, DMEM, DPTR and CP exactly as they were, for every fault code; the state after
it is the state before it plus ERR, ERRCODE and BUSY = 0. -/
def Obligations.FaultLeavesNoPartialResult : Prop :=
  ∀ s t : State, s.err = false → commitCmd s = .next t → t.err = true →
    (∀ r, t.getN r = s.getN r) ∧ (∀ k, t.getCell k = s.getCell k) ∧ t.dptr = s.dptr ∧ t.cp = s.cp ∧
      ∃ c, t = { s with busy := false, err := true, errcode := some c }

/-- An illegal word is accepted at issue like any other, and its commit is the fault ILLEGAL with no other change; the
word stays readable at CMD (R87, R191, R198). -/
def Obligations.IllegalWordIssuesThenFaults : Prop :=
  ∀ (s : State) (v : Word) (why : IllegalWord), s.busy = false → s.err = false → decode v = .error why →
    ∃ t, hostTurn (.write 0x0000 4 v) s = .next t ∧ t.busy = true ∧
      engineTurn t = .next { s with cmdreg := v, done := false, err := true, errcode := some .illegal } ∧
      ∀ u, engineTurn t = .next u → hostTurn (.read 0x0000 4) u = .next { u with hostData := v }

/-- N, DMEM, DPTR, CP and CMDREG cannot change between issue and commit: no step that leaves the command in progress
changes them (R60, R100). -/
def Obligations.OperandsStableWhileBusy : Prop :=
  ∀ s t : State, s.busy = true → step s = .next t → t.busy = true →
    t.n = s.n ∧ t.dmem = s.dmem ∧ t.dptr = s.dptr ∧ t.cp = s.cp ∧ t.cmdreg = s.cmdreg

/-- Nothing hangs: whatever accesses the host makes, once they are made the next step leaves the engine idle, whether the
command in progress committed or a reset among them abandoned it (R105, R206). The empty agenda's rule, that the engine
then moves, is the model's (notes/assumptions/2.md); so is the idle engine's turn, where R102 has no step
(notes/assumptions/4.md), and the finite agenda that stands for weak fairness (notes/assumptions/10.md). -/
def Obligations.EngineIsIdleAfterTheAgenda : Prop :=
  ∀ s : State, (∀ t ∈ s.agenda, t.expressible = true) →
    ∃ t : State, Host.Core.run Sys2Proof.core (s.agenda.length + 1) s = .next t ∧ t.busy = false ∧ t.agenda = []

/-! ### Frames -/

/-- Frame of EGCD, COPRIME, MODINV and MODEXP: registers outside the destinations of R22, every cell, DPTR, and (but
for COPRIME) CP are unchanged; STATUS changes as a commit changes it (R22, R25, R31, R102). -/
def Obligations.FrameOfArithmeticCommands : Prop :=
  ∀ (i : Instr) (s t : State), usesDptr i = false → exec i s = .next t →
    (∀ r, r ∉ writesN i → t.getN r = s.getN r) ∧ (∀ k, t.getCell k = s.getCell k) ∧ t.dptr = s.dptr ∧
      ((∀ ra rb, i ≠ .coprime ra rb) → t.cp = s.cp) ∧ CommitStatus s t ∧ Untouched s t

/-- Frame of DENC: every register and CP are unchanged, and so is every cell outside the WIDTH cells from DPTR up;
DPTR is the one other thing that changes (R151). -/
def Obligations.FrameOfDenc : Prop :=
  ∀ (ra : Reg) (width : BitVec 12) (s t : State), Memory.wf s.dmem → exec (.denc ra width) s = .next t →
    (∀ r, t.getN r = s.getN r) ∧
      (∀ k, ¬(s.fieldStart ≤ k ∧ k < s.fieldStart + width.toNat) → t.getCell k = s.getCell k) ∧
      t.cp = s.cp ∧ CommitStatus s t ∧ Untouched s t

/-- Frame of DDEC: every register but N[rd], every cell, and CP are unchanged; DPTR is the one other thing that
changes (R154). -/
def Obligations.FrameOfDdec : Prop :=
  ∀ (rd : Reg) (width : BitVec 12) (s t : State), exec (.ddec rd width) s = .next t →
    (∀ r, r ≠ rd → t.getN r = s.getN r) ∧ (∀ k, t.getCell k = s.getCell k) ∧ t.cp = s.cp ∧
      CommitStatus s t ∧ Untouched s t

/-- A command's outcome depends on its source registers, and in DENC and DDEC on DPTR and the cells of the field, and
on nothing else: not on CP, STATUS, INTEN or any other register (R22, R103). -/
def Obligations.OutcomeDependsOnSourcesOnly : Prop :=
  ∀ (i : Instr) (s1 s2 t1 t2 : State),
    s1.cfg = s2.cfg → (∀ r ∈ readsN i, s1.getN r = s2.getN r) → (usesDptr i = true → s1.dptr = s2.dptr) →
    (∀ k, k < readsCells i → s1.getCell (s1.fieldStart + k) = s2.getCell (s2.fieldStart + k)) →
    Memory.wf s1.dmem → Memory.wf s2.dmem →
    s1.err = false → s2.err = false → s1.errcode = none → s2.errcode = none →
    exec i s1 = .next t1 → exec i s2 = .next t2 →
    t1.err = t2.err ∧ t1.errcode = t2.errcode ∧
      (t1.err = false →
        (∀ r ∈ writesN i, t1.getN r = t2.getN r) ∧
        (∀ k, k < storesCells i → t1.getCell (s1.fieldStart + k) = t2.getCell (s2.fieldStart + k)) ∧
        (usesDptr i = true → t1.dptr = t2.dptr) ∧
        ((∃ ra rb, i = .coprime ra rb) → t1.cp = t2.cp))

/-! ### EGCD, COPRIME, MODINV -/

/-- R120: for all integers a, b, a·x + b·y = g = gcd(|a|, |b|), non-negative, and 0 exactly when a = b = 0. -/
def Obligations.XgcdGivesBezout : Prop :=
  ∀ a b : Int, a * (xgcd a b).x + b * (xgcd a b).y = (xgcd a b).g ∧
    (xgcd a b).g = ((Nat.gcd a.natAbs b.natAbs : Nat) : Int) ∧ 0 ≤ (xgcd a b).g ∧
    ((xgcd a b).g = 0 ↔ a = 0 ∧ b = 0)

/-- The corner cases of R121 and the sign rule of R122: the recurrence runs on the magnitudes and the signs are
restored at the end. -/
def Obligations.XgcdCornerCasesAndSigns : Prop :=
  xgcd 0 0 = ⟨0, 1, 0⟩ ∧
  (∀ a : Int, xgcd a 0 = ⟨a.natAbs, sgn a, 0⟩) ∧
  (∀ b : Int, b ≠ 0 → xgcd 0 b = ⟨b.natAbs, 0, sgn b⟩) ∧
  (∀ a : Int, a ≠ 0 → xgcd a a = ⟨a.natAbs, 0, sgn a⟩) ∧
  (∀ a b : Int,
    xgcd a b = ⟨(xgcd a.natAbs b.natAbs).g, sgn a * (xgcd a.natAbs b.natAbs).x, sgn b * (xgcd a.natAbs b.natAbs).y⟩)

/-- The size of the Bézout coefficients of the reference recurrence (R123 (b)). -/
def Obligations.BezoutCoefficientsAreSmall : Prop :=
  ∀ a b : Int, 0 < (xgcd a b).g →
    (xgcd a b).x.natAbs ≤ max 1 (b.natAbs / (xgcd a b).g.natAbs) ∧
    (xgcd a b).y.natAbs ≤ max 1 (a.natAbs / (xgcd a b).g.natAbs) ∧
    (2 ≤ b.natAbs / (xgcd a b).g.natAbs → 2 * (xgcd a b).g.natAbs * (xgcd a b).x.natAbs ≤ b.natAbs) ∧
    (2 ≤ a.natAbs / (xgcd a b).g.natAbs → 2 * (xgcd a b).g.natAbs * (xgcd a b).y.natAbs ≤ a.natAbs)

/-- EGCD completes when the gcd fits a register: N[rd] is the gcd, N[rx] and N[ry] the coefficients of the reference
recurrence, and they satisfy Bézout's identity, also when a destination is a source (R88, R121). -/
def Obligations.EgcdCompletes : Prop :=
  ∀ (rd rx ry ra rb : Reg) (s : State), rd ≠ rx → rd ≠ ry → rx ≠ ry →
    ((Nat.gcd (s.getN ra).natAbs (s.getN rb).natAbs : Nat) : Int) ≤ s.cfg.maxN →
    ∃ t, exec (.egcd rd rx ry ra rb) s = .next t ∧ t.busy = false ∧ t.done = true ∧ t.err = s.err ∧
      t.getN rd = ((Nat.gcd (s.getN ra).natAbs (s.getN rb).natAbs : Nat) : Int) ∧
      t.getN rx = (xgcd (s.getN ra) (s.getN rb)).x ∧ t.getN ry = (xgcd (s.getN ra) (s.getN rb)).y ∧
      s.getN ra * t.getN rx + s.getN rb * t.getN ry = t.getN rd

/-- EGCD faults RANGE for exactly three operand pairs: (MINN, MINN), (MINN, 0), (0, MINN) (R108, R123 (a)). -/
def Obligations.EgcdFaultsRangeExactly : Prop :=
  ∀ (rd rx ry ra rb : Reg) (s : State), s.Inv →
    (exec (.egcd rd rx ry ra rb) s = .next (s.takeFault .range) ↔
      (s.getN ra = s.cfg.minN ∧ s.getN rb = s.cfg.minN) ∨ (s.getN ra = s.cfg.minN ∧ s.getN rb = 0) ∨
        (s.getN ra = 0 ∧ s.getN rb = s.cfg.minN))

/-- COPRIME always completes: CP is 1 if and only if the gcd is 1, and no register is written (R124, R125). -/
def Obligations.CoprimeCompletes : Prop :=
  ∀ (ra rb : Reg) (s : State),
    exec (.coprime ra rb) s = .next { s with
      cp := decide (Nat.gcd (s.getN ra).natAbs (s.getN rb).natAbs = 1), busy := false, done := true }

/-- MODINV completes when the modulus is positive and the operands are coprime: the result lies in [0, b), is the
inverse for b > 1 and 0 for b = 1, and does not depend on which Bézout pair is taken (R126, R127). -/
def Obligations.ModinvCompletes : Prop :=
  ∀ (rd ra rb : Reg) (s : State), 0 < s.getN rb → Nat.gcd (s.getN ra).natAbs (s.getN rb).natAbs = 1 →
    ∃ v, exec (.modinv rd ra rb) s = .next (s.setN rd v).complete ∧ 0 ≤ v ∧ v < s.getN rb ∧
      (1 < s.getN rb → v * s.getN ra % s.getN rb = 1) ∧ (s.getN rb = 1 → v = 0) ∧
      ∀ x y, s.getN ra * x + s.getN rb * y = 1 → v = x % s.getN rb

/-- MODINV faults DOMAIN for a modulus that is not positive, whatever the gcd, and otherwise ARITH when the operands
are not coprime (R126, R192, R197). -/
def Obligations.ModinvFaults : Prop :=
  ∀ (rd ra rb : Reg) (s : State),
    (s.getN rb ≤ 0 → exec (.modinv rd ra rb) s = .next (s.takeFault .domain)) ∧
    (0 < s.getN rb → Nat.gcd (s.getN ra).natAbs (s.getN rb).natAbs ≠ 1 →
      exec (.modinv rd ra rb) s = .next (s.takeFault .arith))

/-! ### MODEXP -/

/-- MODEXP completes in its domain with N[rd] = b^e mod n, in [0, n), with 0^0 = 1 (R140, R141). -/
def Obligations.ModexpCompletes : Prop :=
  ∀ (rd ra rb rc : Reg) (s : State), 0 < s.getN rc → 0 ≤ s.getN rb → 0 ≤ s.getN ra →
    exec (.modexp rd ra rb rc) s = .next (s.setN rd (s.getN ra ^ (s.getN rb).toNat % s.getN rc)).complete ∧
      0 ≤ s.getN ra ^ (s.getN rb).toNat % s.getN rc ∧ s.getN ra ^ (s.getN rb).toNat % s.getN rc < s.getN rc

/-- MODEXP faults DOMAIN for n ≤ 0, e < 0 or b < 0 (R141, R194). -/
def Obligations.ModexpFaultsDomain : Prop :=
  ∀ (rd ra rb rc : Reg) (s : State), s.getN rc ≤ 0 ∨ s.getN rb < 0 ∨ s.getN ra < 0 →
    exec (.modexp rd ra rb rc) s = .next (s.takeFault .domain)

/-- R142: the result laws of modular exponentiation. -/
def Obligations.ModexpLaws : Prop :=
  ∀ b e e1 e2 n : Nat, 1 ≤ n →
    modexp b e n = modexp (b % n) e n ∧
    modexp b (e1 + e2) n = modexp b e1 n * modexp b e2 n % n ∧
    modexp b (2 * e) n = modexp (b * b % n) e n ∧
    modexp b e n < n

/-- Two MODEXP commands, with the public and then the private exponent of a valid key of two different primes, both
complete without fault and give back every block below the modulus (R145). -/
def Obligations.RsaCommandsInvert : Prop :=
  ∀ (p q n e d m : Nat) (rm re rd rn rc ro : Reg) (s : State), KeyInvariant p q n e d → p ≠ q → m < n →
    s.getN rm = m → s.getN re = e → s.getN rd = d → s.getN rn = n → rc ≠ rd → rc ≠ rn →
    ∃ t u, exec (.modexp rc rm re rn) s = .next t ∧ t.done = true ∧ t.err = s.err ∧
      exec (.modexp ro rc rd rn) t = .next u ∧ u.done = true ∧ u.err = s.err ∧ u.getN ro = m

/-! ### DENC, DDEC -/

/-- DENC completes when the field fits in DMEM and the value fits the field: cell i of the field is digit i, most
significant first, and DPTR is advanced by WIDTH (R151). -/
def Obligations.DencCompletes : Prop :=
  ∀ (ra : Reg) (width : BitVec 12) (s : State), Memory.wf s.dmem → s.cfg.Legal →
    s.fieldStart + width.toNat ≤ s.cfg.dlen → 0 ≤ s.getN ra → s.getN ra < 10 ^ width.toNat →
    ∃ t, exec (.denc ra width) s = .next t ∧ t.busy = false ∧ t.done = true ∧ t.err = s.err ∧
      (∀ i, i < width.toNat →
        (t.getCell (s.fieldStart + i)).toNat = (s.getN ra).toNat / 10 ^ (width.toNat - 1 - i) % 10) ∧
      t.dptr.toNat = s.fieldStart + width.toNat

/-- DENC faults DBOUNDS when the field does not fit in DMEM, whatever the value, and otherwise ENCODING when the value
is negative or has more digits than the field (R151, R193, R197). -/
def Obligations.DencFaults : Prop :=
  ∀ (ra : Reg) (width : BitVec 12) (s : State),
    (s.cfg.dlen < s.fieldStart + width.toNat → exec (.denc ra width) s = .next (s.takeFault .dbounds)) ∧
    (s.fieldStart + width.toNat ≤ s.cfg.dlen → s.getN ra < 0 ∨ 10 ^ width.toNat ≤ s.getN ra →
      exec (.denc ra width) s = .next (s.takeFault .encoding))

/-- DDEC completes when the field fits in DMEM, holds decimal digits and spells a value that fits a register: N[rd]
is that value and DPTR is advanced by WIDTH (R150, R154). -/
def Obligations.DdecCompletes : Prop :=
  ∀ (rd : Reg) (width : BitVec 12) (s : State), s.cfg.Legal → s.fieldStart + width.toNat ≤ s.cfg.dlen →
    s.fieldDecimal width.toNat → (s.fieldSum width.toNat : Int) ≤ s.cfg.maxN →
    ∃ t, exec (.ddec rd width) s = .next t ∧ t.busy = false ∧ t.done = true ∧ t.err = s.err ∧
      t.getN rd = s.fieldSum width.toNat ∧ t.dptr.toNat = s.fieldStart + width.toNat

/-- DDEC faults DBOUNDS when the field does not fit in DMEM, whatever its cells; otherwise ENCODING when a cell of it
is not a decimal digit; otherwise RANGE when its value does not fit a register (R154, R197). -/
def Obligations.DdecFaults : Prop :=
  ∀ (rd : Reg) (width : BitVec 12) (s : State),
    (s.cfg.dlen < s.fieldStart + width.toNat → exec (.ddec rd width) s = .next (s.takeFault .dbounds)) ∧
    (s.fieldStart + width.toNat ≤ s.cfg.dlen → ¬s.fieldDecimal width.toNat →
      exec (.ddec rd width) s = .next (s.takeFault .encoding)) ∧
    (s.fieldStart + width.toNat ≤ s.cfg.dlen → s.fieldDecimal width.toNat →
      s.cfg.maxN < s.fieldSum width.toNat → exec (.ddec rd width) s = .next (s.takeFault .range))

/-- R156: (a) a DDEC of the field a DENC wrote, with DPTR set back, gives the value; (b) a DENC of the value a DDEC
read, with DPTR set back, rewrites the same digits. `s'` is any state with DPTR set back and those cells unchanged. -/
def Obligations.CodecInverse : Prop :=
  ∀ (s t s' : State) (width : BitVec 12), s.Inv → s.err = false → t.err = false → s'.cfg = s.cfg →
    s'.dptr = s.dptr → Memory.wf s'.dmem →
    (∀ k, k < width.toNat → s'.getCell (s.fieldStart + k) = t.getCell (s.fieldStart + k)) →
    (∀ ra rd : Reg, exec (.denc ra width) s = .next t →
      exec (.ddec rd width) s' = .next ((s'.setN rd (s.getN ra)).setDptr (s.fieldStart + width.toNat)).complete) ∧
    (∀ rd : Reg, exec (.ddec rd width) s = .next t → s'.getN rd = t.getN rd →
      ∃ u, exec (.denc rd width) s' = .next u ∧ u.done = true ∧ u.err = s'.err ∧
        ∀ k, u.getCell k = s'.getCell k)

/-! ### Invariants and reset -/

/-- Every step keeps the invariant: registers in MINN..MAXN, DMEM canonical and inside 0..DLEN−1, BUSY excludes DONE
and ERR, ERR exactly with a code, DONE excludes ERR (R20). -/
def Obligations.EveryStepKeepsTheInvariant : Prop := ∀ s t : State, s.Inv → step s = .next t → t.Inv

/-- The invariant holds after reset, of every legal instance. -/
def Obligations.ResetHasTheInvariant : Prop :=
  State.reset.Inv ∧ ∀ cfg : Config, cfg.Legal → (State.resetOf cfg).Inv

/-- R38: after reset, and after a soft reset, from any state, every piece of state is zero and STATUS reads 0, both
interrupt sources are disabled, CMD reads 0, and PARAM is not affected. -/
def Obligations.ResetZeroesEverything : Prop :=
  State.reset.Zeroed ∧
  ∀ s : State,
    ∃ t, takeTurn .reset s = .next t ∧ takeTurn (.host (.write 0x0014 4 1)) s = .next t ∧ t.Zeroed ∧
      t.readLoc .status = 0 ∧ t.irq = false ∧ t.readLoc .cmd = 0 ∧ t.readLoc .param = s.readLoc .param

/-- R32: CTRL. A write with bit 0 set is a soft reset in one step, at any time; with bit 0 clear it does nothing; the
other bits are ignored; a read returns 0. What is outside the block (the agenda, the data of the last read) stays
(notes/assumptions/2.md, 3.md). -/
def Obligations.CtrlSoftReset : Prop :=
  ∀ (s : State) (v : Word),
    (v.getLsbD 0 = true → ∃ t, hostTurn (.write 0x0014 4 v) s = .next t ∧ t.Zeroed ∧ t.cfg = s.cfg ∧
      t.agenda = s.agenda ∧ t.hostData = s.hostData) ∧
    (v.getLsbD 0 = false → hostTurn (.write 0x0014 4 v) s = .next s) ∧
    hostTurn (.read 0x0014 4) s = .next { s with hostData := 0 }

/-! ### Control and status registers, and the host port -/

/-- A host write to STATUS is always performed: it clears exactly those of DONE, ERR, REJ whose written bit is 1, and
ERRCODE with ERR; a read returns the five bits and zeroes (R28, R200). -/
def Obligations.StatusReadAndClear : Prop :=
  ∀ (s : State) (v : Word),
    hostTurn (.write 0x0004 4 v) s = .next { s with
      done := s.done && !v.getLsbD 1
      err := s.err && !v.getLsbD 2
      errcode := if v.getLsbD 2 then none else s.errcode
      rej := s.rej && !v.getLsbD 4 } ∧
    ∃ d, hostTurn (.read 0x0004 4) s = .next { s with hostData := d } ∧ d.getLsbD 0 = s.busy ∧
      d.getLsbD 1 = s.done ∧ d.getLsbD 2 = s.err ∧ d.getLsbD 3 = s.cp ∧ d.getLsbD 4 = s.rej ∧
      ∀ k, 5 ≤ k → d.getLsbD k = false

/-- R30: INTEN is read and written at any time; bit 1 is DONE_IE, bit 2 ERR_IE, the others read 0; the two bits enable
the two interrupt sources. -/
def Obligations.IntenReadAndWrite : Prop :=
  ∀ (s : State) (v : Word),
    ∃ t, hostTurn (.write 0x000C 4 v) s = .next t ∧
      t = { s with doneIe := v.getLsbD 1, errIe := v.getLsbD 2 } ∧
      hostTurn (.read 0x000C 4) t = .next { t with hostData := v &&& 0x6 } ∧
      t.irq = ((t.done && v.getLsbD 1) || (t.err && v.getLsbD 2))

/-- DPTR: a write stores bits 15:0 when BUSY = 0 and is rejected when BUSY = 1; a read returns it; a value above DLEN is
stored as written and makes the next DENC or DDEC fault DBOUNDS (R31). Reads also while BUSY = 1 (R61). -/
def Obligations.DptrReadAndWrite : Prop :=
  ∀ (s : State) (v : Word),
    (∃ d, hostTurn (.read 0x0010 4) s = .next { s with hostData := d } ∧ d.toNat = s.dptr.toNat) ∧
    (s.busy = true → hostTurn (.write 0x0010 4 v) s = .next { s with rej := true }) ∧
    (s.busy = false → ∃ t, hostTurn (.write 0x0010 4 v) s = .next t ∧ t = { s with dptr := t.dptr } ∧
      t.dptr.toNat = v.toNat % 65536 ∧
      (∃ d, hostTurn (.read 0x0010 4) t = .next { t with hostData := d } ∧ d.toNat = v.toNat % 65536) ∧
      (s.cfg.dlen < v.toNat % 65536 → ∀ (r : Reg) (width : BitVec 12),
        exec (.denc r width) t = .next (t.takeFault .dbounds) ∧
        exec (.ddec r width) t = .next (t.takeFault .dbounds)))

/-- ERRCODE and PARAM are read-only, writes are ignored without REJ; ERRCODE reads the code of the pending fault, by the
table of R190, and 0 without one; PARAM reads XLEN in bits 15:0 and DLEN in bits 31:16 and no step changes it (R29, R33, R190). -/
def Obligations.ReadOnlyRegisters : Prop :=
  ∀ s : State, s.Inv →
    (∀ v, hostTurn (.write 0x0008 4 v) s = .next s ∧ hostTurn (.write 0x0018 4 v) s = .next s) ∧
    (∃ d, hostTurn (.read 0x0008 4) s = .next { s with hostData := d } ∧ (d = 0 ↔ s.err = false) ∧ d.toNat ≤ 6 ∧
      (s.errcode = some .illegal → d = 1) ∧ (s.errcode = some .arith → d = 2) ∧
      (s.errcode = some .encoding → d = 3) ∧ (s.errcode = some .domain → d = 4) ∧
      (s.errcode = some .range → d = 5) ∧ (s.errcode = some .dbounds → d = 6)) ∧
    (∃ d, hostTurn (.read 0x0018 4) s = .next { s with hostData := d } ∧
      d.toNat = s.cfg.xlen + 65536 * s.cfg.dlen) ∧
    ∀ t, step s = .next t → t.cfg = s.cfg

/-- The N register window: a read returns 32 bits of the two's complement word; a write replaces exactly those 32 bits,
keeps the other words, the other registers and the register's range; a word the instance does not implement reads 0
and ignores writes (R51, R57). -/
def Obligations.RegisterWindow : Prop :=
  ∀ (s : State) (i : Reg) (j : Nat) (v : Word), s.Inv → j < 256 →
    (j < s.cfg.nWords →
      ∃ d, hostTurn (.read (nWordAddr i j) 4) s = .next { s with hostData := d } ∧
        d.toNat = sext s.cfg.xlen (s.getN i) / 2 ^ (32 * j) % 2 ^ 32) ∧
    (j < s.cfg.nWords → s.busy = false →
      ∃ t, hostTurn (.write (nWordAddr i j) 4 v) s = .next t ∧ t = s.setN i (t.getN i) ∧
        hostTurn (.read (nWordAddr i j) 4) t = .next { t with hostData := v } ∧
        (∀ j', j' ≠ j → t.readNWord i j' = s.readNWord i j') ∧
        s.cfg.minN ≤ t.getN i ∧ t.getN i ≤ s.cfg.maxN) ∧
    (s.cfg.nWords ≤ j → hostTurn (.write (nWordAddr i j) 4 v) s = .next s ∧
      hostTurn (.read (nWordAddr i j) 4) s = .next { s with hostData := 0 })

/-- The DMEM window: word w covers cells 4w to 4w+3, lane k of the word is cell 4w+k, each byte is stored as written and
no other cell changes; a read, also while BUSY = 1, returns the four cells (R61); a word the instance does not implement
reads 0 and ignores writes (R58). -/
def Obligations.DigitWindow : Prop :=
  ∀ (s : State) (w : Nat) (v : Word), s.Inv → w < 4096 →
    (w < s.cfg.dWords → ∃ d, hostTurn (.read (dWordAddr w) 4) s = .next { s with hostData := d } ∧
      ∀ k, k < 4 → d.extractLsb' (8 * k) 8 = s.getCell (4 * w + k)) ∧
    (w < s.cfg.dWords → s.busy = false →
      ∃ t, hostTurn (.write (dWordAddr w) 4 v) s = .next t ∧ t = { s with dmem := t.dmem } ∧
        (∀ k, k < 4 → t.getCell (4 * w + k) = v.extractLsb' (8 * k) 8) ∧
        (∀ k, ¬(4 * w ≤ k ∧ k < 4 * w + 4) → t.getCell k = s.getCell k) ∧
        hostTurn (.read (dWordAddr w) 4) t = .next { t with hostData := v }) ∧
    (s.cfg.dWords ≤ w → hostTurn (.write (dWordAddr w) 4 v) s = .next s ∧
      hostTurn (.read (dWordAddr w) 4) s = .next { s with hostData := 0 })

/-- Reserved offsets read 0 and ignore writes, at any time, without REJ (R59). -/
def Obligations.ReservedOffsets : Prop :=
  ∀ (s : State) (addr : Nat) (v : Word), addr % 4 = 0 →
    (0x001C ≤ addr ∧ addr ≤ 0x0FFC) ∨ (0x3000 ≤ addr ∧ addr ≤ 0x3FFC) →
    hostTurn (.write addr 4 v) s = .next s ∧ hostTurn (.read addr 4) s = .next { s with hostData := 0 }

/-- The rejected writes are exactly those of R60: such a write changes nothing except REJ, and no other write sets
REJ. -/
def Obligations.RejectedWritesExactly : Prop :=
  ∀ (s : State) (addr : Nat) (v : Word), s.cfg.Legal → addr % 4 = 0 → addr ≤ 0x7FFC →
    (s.rejectsWrite addr → hostTurn (.write addr 4 v) s = .next { s with rej := true }) ∧
    (¬s.rejectsWrite addr → ∀ t, hostTurn (.write addr 4 v) s = .next t → t.rej = true → s.rej = true)

/-- A read is never rejected and changes nothing but the data the port returns, also while BUSY = 1 or ERR = 1; so it
can be repeated (R54, R61). A read of CMD returns CMDREG (R27). -/
def Obligations.ReadsChangeNothing : Prop :=
  ∀ s : State,
    (∀ addr, addr % 4 = 0 → addr ≤ 0x7FFC →
      ∃ d, hostTurn (.read addr 4) s = .next { s with hostData := d } ∧
        ∀ d', hostTurn (.read addr 4) { s with hostData := d' } = .next { s with hostData := d }) ∧
    hostTurn (.read 0x0000 4) s = .next { s with hostData := s.cmdreg }

/-- The port refuses exactly the accesses it cannot express: a width other than 4 bytes, an unaligned offset, an
offset above 0x7FFC (R50, R52). -/
def Obligations.PortRefusesExactly : Prop :=
  ∀ (a : HostAccess) (s : State), (∃ r, hostTurn a s = .refused r) ↔ a.expressible = false

/-- Whole machine: a step stops only where the host's access cannot be expressed on the port; no command, no word and
no state is refused or stuck (R206). That the engine has a turn with BUSY = 0, which changes nothing, where R102 has no
step, is the model's choice (notes/assumptions/4.md), and so is the turn of an empty agenda (notes/assumptions/2.md). -/
def Obligations.OnlyInexpressibleAccessesStop : Prop :=
  ∀ s : State, (∃ t, step s = .next t) ↔ (nextTurn s).expressible = true

/-- Whole machine: CP changes only by a COPRIME that commits, to whether the gcd is 1, or by a reset (R25). -/
def Obligations.OnlyCoprimeWritesCp : Prop :=
  ∀ s t : State, step s = .next t → t.cp ≠ s.cp →
    (∃ ra rb, nextTurn s = .engine ∧ s.busy = true ∧ decode s.cmdreg = .ok (.coprime ra rb) ∧
      t.cp = decide (Nat.gcd (s.getN ra).natAbs (s.getN rb).natAbs = 1)) ∨
    t.Zeroed

/-- The interrupt line is inactive while a command is in progress, and after its commit it is active exactly when the
enable of the way it ended is set (R37, R199). -/
def Obligations.InterruptLine : Prop :=
  ∀ s : State, s.Inv → s.busy = true →
    s.irq = false ∧
    ∀ t, engineTurn s = .next t → t.irq = if t.err then s.errIe else s.doneIe

/-- R201: faults do not nest. While ERR = 1 a write to CMD is rejected, every step either keeps the fault and its code
or clears both, and a soft reset or reset clears it with everything else. -/
def Obligations.FaultsDoNotNest : Prop :=
  ∀ s : State, s.Inv → s.err = true →
    (∀ v, hostTurn (.write 0x0000 4 v) s = .next { s with rej := true }) ∧
    (∀ t, step s = .next t → (t.err = true ∧ t.errcode = s.errcode) ∨ (t.err = false ∧ t.errcode = none)) ∧
    (∃ t, takeTurn .reset s = .next t ∧ hostTurn (.write 0x0014 4 1) s = .next t ∧ t.Zeroed)

/-! ### Host sequences -/

/-- LOADN then READN: LOADN makes N_i the value and changes nothing else; READN returns what N_i holds (R57, R89). -/
def Obligations.LoadAndFetchRegister : Prop :=
  ∀ (s : State) (i : Reg), s.Inv →
    (∀ v, s.busy = false → s.cfg.minN ≤ v → v ≤ s.cfg.maxN → loadN i v s = .ok () (s.setN i v)) ∧
    ∃ d, fetchN i s = .ok (s.getN i) { s with hostData := d }

/-- RUN: issue, wait and check ERR amount to the command's commit, however many times the host polls; on a fault RUN
acknowledges it and aborts with the code that ERRCODE held (R61, R169). -/
def Obligations.RunIsIssueThenCommit : Prop :=
  ∀ (s : State) (word : Word) (polls : Nat), s.Inv → s.busy = false → s.err = false →
    ∃ t, engineTurn (s.issue word) = .next t ∧
      ((t.err = false ∧ ∃ d, runWord word polls s = .ok () { t with hostData := d }) ∨
        (t.err = true ∧ ∃ c d, t.errcode = some c ∧
          runWord word polls s = .error (abortOf (BitVec.ofNat 32 c.code)) { t.ackFault with hostData := d }))

/-- ENCODE_MSG writes the text's DigitString at p0, three digits a character, and leaves DPTR after it; at the first code
point of 1000 or more it aborts with EncodingError, with the digits before it written (the host discards them), and so
does ENCODE_CHAR of every such code point (R170, R171). -/
def Obligations.EncodeMessage : Prop :=
  ∀ (s : State) (nA : Reg) (polls : Nat), s.Inv → s.busy = false → s.err = false →
    (∀ (text : List Nat) (p0 : Nat), (∀ c ∈ text, c < 1000) → p0 + 3 * text.length ≤ s.cfg.dlen →
      ∃ t, encodeMsg nA polls text p0 s = .ok () t ∧ t.Inv ∧ t.busy = false ∧ t.err = false ∧ t.cfg = s.cfg ∧
        (∀ k, k < 3 * text.length → t.getCell (p0 + k) = (digitString text).getD k 0) ∧
        (∀ k, ¬(p0 ≤ k ∧ k < p0 + 3 * text.length) → t.getCell k = s.getCell k) ∧
        t.dptr.toNat = p0 + 3 * text.length) ∧
    (∀ (before after : List Nat) (c p0 : Nat), (∀ b ∈ before, b < 1000) → 1000 ≤ c →
      p0 + 3 * (before.length + 1) ≤ s.cfg.dlen →
      ∃ t, encodeMsg nA polls (before ++ c :: after) p0 s = .error .encodingError t ∧
        (∀ k, k < 3 * before.length → t.getCell (p0 + k) = (digitString before).getD k 0) ∧
        (∀ k, ¬(p0 ≤ k ∧ k < p0 + 3 * before.length) → t.getCell k = s.getCell k) ∧
        t.dptr.toNat = p0 + 3 * before.length) ∧
    (∀ c : Nat, 1000 ≤ c → s.fieldStart + 3 ≤ s.cfg.dlen →
      ∃ t, encodeChar nA polls c s = .error .encodingError t ∧ ∀ k, t.getCell k = s.getCell k)

/-- R175: the chunking property, of the CHUNK procedure on the block. -/
def Obligations.ChunkingProperty : Prop :=
  ∀ (nB : Reg) (polls total blockLen p0 : Nat) (pads : Nat → Byte) (s t : State) (blocks : List Int),
    1 ≤ blockLen → chunk nB polls total blockLen p0 pads s = .ok blocks t →
    blocks.length * blockLen = total + paddingCount total blockLen ∧ paddingCount total blockLen < blockLen

/-- DECODE_MSG aborts with EncodingError, touching nothing, when the padding count exceeds the digits or the rest is
not a multiple of 3 (R172). -/
def Obligations.DecodeMessageChecksGrouping : Prop :=
  ∀ (nD : Reg) (polls len padding p0 : Nat) (s : State), len < padding ∨ (len - padding) % 3 ≠ 0 →
    decodeMsg nD polls len padding p0 s = .error .encodingError s

/-- Key validity: a key pair KEYGEN returns has one modulus p·q, an accepted draw as e with gcd(e, φ) = 1, and d in
[0, φ) with e·d ≡ 1 (mod φ); the register that held φ is wiped; and with no cap and no guard KEYGEN returns a key as soon
as one draw is coprime to φ (R167, R179, R181), whichever registers the host uses. That the draws are a finite list is
the model's choice (notes/assumptions/8.md). -/
def Obligations.KeygenGivesValidKeys : Prop :=
  ∀ (s : State) (nD nE nP : Reg) (polls : Nat) (p q : Int) (draws : List Int) (maxAttempts : Option Nat) (guard : Bool),
    s.Inv → s.busy = false → s.err = false → nE ≠ nP → 2 ≤ p → 2 ≤ q →
    1 < (p - 1) * (q - 1) → (p - 1) * (q - 1) ≤ s.cfg.maxN →
    (∀ e ∈ draws, 1 ≤ e ∧ e < (p - 1) * (q - 1)) →
    (∀ (pub priv : Key) (t : State), keygen nD nE nP polls p q draws maxAttempts guard s = .ok (pub, priv) t →
      pub.modulus = p * q ∧ priv.modulus = p * q ∧ pub.exponent ∈ draws ∧
      Int.gcd pub.exponent ((p - 1) * (q - 1)) = 1 ∧ 0 ≤ priv.exponent ∧
      priv.exponent < (p - 1) * (q - 1) ∧ pub.exponent * priv.exponent % ((p - 1) * (q - 1)) = 1 ∧
      t.getN nP = 0 ∧ (guard = true → pub.exponent ≠ 1 ∧ pub.exponent ≠ (p - 1) * (q - 1) - 1)) ∧
    (maxAttempts = none → guard = false → (∃ e ∈ draws, Int.gcd e ((p - 1) * (q - 1)) = 1) →
      ∃ keys t, keygen nD nE nP polls p q draws maxAttempts guard s = .ok keys t)

/-- The round trip of the whole pipeline on the block: decrypting what encrypting a text gave returns the text, for
every block length, whatever registers the host uses and whatever padding digits it drew, when every block is below the
modulus, the two primes differ and everything fits (R182, R183). The ciphertext is b^e mod n of each block (R177).
10^block_len ≤ n implies the premise on the blocks (R182 (i)). -/
def Obligations.PipelineRoundTrip : Prop :=
  ∀ (s : State) (l : Layout) (polls polls' p q n e d blockLen p0 p0' : Nat) (text : List Nat) (pads : Nat → Byte),
    s.Inv → s.busy = false → s.err = false → l.distinct →
    KeyInvariant p q n e d → p ≠ q → (n : Int) ≤ s.cfg.maxN → (e : Int) ≤ s.cfg.maxN →
    1 ≤ blockLen → blockLen ≤ 4095 →
    (∀ c ∈ text, c < 1000) → (∀ i, (pads i).toNat ≤ 9) → (∀ b ∈ blocksOf text blockLen pads, fieldValue b < n) →
    p0 + numBlocks (3 * text.length) blockLen * blockLen ≤ s.cfg.dlen →
    p0' + numBlocks (3 * text.length) blockLen * blockLen ≤ s.cfg.dlen →
    ∃ ciphertext padding t u,
      encryptText l polls text { modulus := n, exponent := e } blockLen p0 pads s = .ok (ciphertext, padding) t ∧
      ciphertext = (blocksOf text blockLen pads).map (fun b => ((fieldValue b ^ e % n : Nat) : Int)) ∧
      (∀ c ∈ ciphertext, 0 ≤ c ∧ c < n) ∧
      decryptText l polls' ciphertext { modulus := n, exponent := d } padding blockLen p0' t =
        .ok (text.map Int.ofNat) u

/-- The round trip of a message of any length, processed in pieces: DMEM need hold one character and one block only
(R182 (iii), R184). The ciphertext is the one of R177, as if the message were resident. How the message is cut into
pieces, one character and one block at a time, is the model's choice (notes/assumptions/8.md). -/
def Obligations.PiecewiseRoundTrip : Prop :=
  ∀ (s : State) (l : Layout) (polls polls' p q n e d blockLen p0 p0' : Nat) (text : List Nat) (pads : Nat → Byte),
    s.Inv → s.busy = false → s.err = false → l.distinct →
    KeyInvariant p q n e d → p ≠ q → (n : Int) ≤ s.cfg.maxN → (e : Int) ≤ s.cfg.maxN →
    1 ≤ blockLen → blockLen ≤ 4095 →
    (∀ c ∈ text, c < 1000) → (∀ i, (pads i).toNat ≤ 9) → (∀ b ∈ blocksOf text blockLen pads, fieldValue b < n) →
    p0 + max 3 blockLen ≤ s.cfg.dlen → p0' + max 3 blockLen ≤ s.cfg.dlen →
    ∃ ciphertext padding t u,
      encryptPieces l polls text { modulus := n, exponent := e } blockLen p0 pads s = .ok (ciphertext, padding) t ∧
      ciphertext = (blocksOf text blockLen pads).map (fun b => ((fieldValue b ^ e % n : Nat) : Int)) ∧
      padding = paddingCount (3 * text.length) blockLen ∧
      decryptPieces l polls' ciphertext { modulus := n, exponent := d } padding blockLen p0' t =
        .ok (text.map Int.ofNat) u

/-- The model's choice (notes/assumptions/12.md, 13.md), where R11, R31, R144 and R173 say only that the operand is out
of range: a host procedure aborts by name, having touched nothing. -/
def Obligations.ProceduresAbortOutOfRange : Prop :=
  ∀ s : State,
    (∀ (i : Reg) (v : Int), v < s.cfg.minN ∨ s.cfg.maxN < v → loadN i v s = .error .unloadable s) ∧
    (∀ p, 65535 < p → pointTo p s = .error .pointerOutOfRange s) ∧
    (∀ (r : Reg) (polls total blockLen p0 : Nat) (pads : Nat → Byte) (values : List Int),
      blockLen = 0 ∨ 4095 < blockLen →
      chunk r polls total blockLen p0 pads s = .error .blockLenOutOfRange s ∧
      reassemble r polls values blockLen p0 s = .error .blockLenOutOfRange s)
end

