-- ==== Sys2Proof/Laws/Arith.lean ====
section
/-! SUPPORT. What the arithmetic of the commands computes: the square-and-multiply loop of R143 is the power of R140,
and the recurrence of R122 has ended when its bound on the rounds is reached. -/

namespace Sys2Proof.Machine

/-- R143's loop invariant: over an exponent below 2^L, the loop gives base^e mod n. -/
theorem modexpBits_eq (base n L e : Nat) (he : e < 2 ^ L) : modexpBits base n L e = base ^ e % n := by
  induction L generalizing e with
  | zero =>
    obtain rfl : e = 0 := by simpa using he
    simp [modexpBits]
  | succ L ih =>
    have h2 : e / 2 < 2 ^ L := by rw [pow_succ] at he; omega
    have hsq : base ^ (e / 2) % n * (base ^ (e / 2) % n) % n = base ^ (2 * (e / 2)) % n := by
      rw [← Nat.mul_mod, ← pow_add, two_mul]
    simp only [modexpBits, ih _ h2, hsq]
    split
    · next h =>
      conv_rhs => rw [← Nat.div_add_mod e 2, h, pow_succ, Nat.mul_mod]
      rw [Nat.mul_mod, Nat.mod_mod]
    · next h =>
      have h0 : e % 2 = 0 := by omega
      conv_rhs => rw [← Nat.div_add_mod e 2, h0, add_zero]

/-- R140: MODEXP's function is (b^e) mod n. -/
theorem modexp_eq (b e n : Nat) : modexp b e n = b ^ e % n := by
  unfold modexp
  rw [modexpBits_eq _ _ _ _ Nat.lt_log2_self, ← Nat.pow_mod]

/-- R122: the recurrence is over when the bound on the rounds is reached. -/
theorem euclidLoop_done (fuel : Nat) (e : Euclid) (h : e.r1 < fuel) : (euclidLoop fuel e).r1 = 0 := by
  induction fuel generalizing e with
  | zero => omega
  | succ fuel ih =>
    simp only [euclidLoop]
    split
    · assumption
    · next h0 =>
      exact ih _ (by
        have : e.r0 % e.r1 < e.r1 := Nat.mod_lt _ (Nat.pos_of_ne_zero h0)
        simp only [euclidRound]
        omega)

/-- R122: a property that every round keeps holds at the end of the recurrence. -/
theorem euclidLoop_induct (P : Euclid → Prop) (hround : ∀ e, e.r1 ≠ 0 → P e → P (euclidRound e)) (fuel : Nat)
    (e : Euclid) (h : P e) : P (euclidLoop fuel e) := by
  induction fuel generalizing e with
  | zero => exact h
  | succ fuel ih =>
    simp only [euclidLoop]
    split
    · exact h
    · next h0 => exact ih _ (hround e h0 h)

theorem length_digits (v w : Nat) : (digits v w).length = w := by simp [digits]

/-- R151: digit i of the field. -/
theorem getElem_digits (v w i : Nat) (hi : i < (digits v w).length) :
    ((digits v w)[i]).toNat = v / 10 ^ (w - 1 - i) % 10 := by
  have : v / 10 ^ (w - 1 - i) % 10 < 10 := Nat.mod_lt _ (by norm_num)
  simp only [digits, List.getElem_map, List.getElem_range, BitVec.toNat_ofNat]
  omega

/-- R150: a field of the cells `cs` and then one cell `c` spells ten times the value of `cs`, and `c`. -/
theorem fieldValue_append_one (cs : List Byte) (c : Byte) :
    fieldValue (cs ++ [c]) = fieldValue cs * 10 + c.toNat := by
  simp [fieldValue]

end Sys2Proof.Machine
end

