-- ==== Sys2Proof/Laws/Memory.lean ====
section
/-! SUPPORT. DMEM's laws: a read after a write, the other cells untouched, the canonical form kept by every
operation, and equal canonical memories are those that read alike. -/

namespace Sys2Proof.Machine.Memory

/-- Every index listed is at least `lo`. -/
def allFrom (lo : Nat) (m : Memory) : Prop := ∀ c ∈ m, lo ≤ c.1

theorem wf_nil : wf [] := by simp [wf]

theorem wf_cons {c : Host.Cell} {m : Memory} : wf (c :: m) ↔ c.2 ≠ 0 ∧ allFrom (c.1 + 1) m ∧ wf m := by
  simp only [wf, List.pairwise_cons, List.mem_cons, forall_eq_or_imp, allFrom, Nat.succ_le_iff]
  tauto

theorem allFrom_cons {lo : Nat} {c : Host.Cell} {m : Memory} : allFrom lo (c :: m) ↔ lo ≤ c.1 ∧ allFrom lo m := by
  simp [allFrom]

theorem read_cons (c : Host.Cell) (m : Memory) (k : Nat) : read (c :: m) k = if c.1 = k then c.2 else read m k := rfl

theorem read_below {lo k : Nat} {m : Memory} (h : allFrom lo m) (hk : k < lo) : read m k = 0 := by
  induction m with
  | nil => rfl
  | cons c m ih =>
    obtain ⟨h1, h2⟩ := allFrom_cons.1 h
    rw [read_cons, if_neg (by omega), ih h2]

theorem read_cell_append (k j : Nat) (v : Byte) (m : Memory) :
    read (cell k v ++ m) j = if k = j ∧ v ≠ 0 then v else read m j := by
  unfold cell
  split <;> simp_all [read_cons]

/-- A read after a write. -/
theorem read_write {m : Memory} (h : wf m) (k j : Nat) (v : Byte) :
    read (write m k v) j = if k = j then v else read m j := by
  induction m with
  | nil =>
    have := read_cell_append k j v []
    simp only [List.append_nil] at this
    simp only [write, this]
    by_cases hk : k = j <;> by_cases hv : v = 0 <;> simp_all [read]
  | cons c m ih =>
    obtain ⟨a, u⟩ := c
    obtain ⟨hu, hm, hw⟩ := wf_cons.1 h
    simp only [write]
    split
    · next hlt =>
      rw [read_cell_append]
      by_cases hk : k = j
      · subst hk
        by_cases hv : v = 0
        · simp [hv, read_cons, Nat.ne_of_gt hlt, read_below hm (Nat.lt_succ_of_lt hlt)]
        · rw [if_pos ⟨rfl, hv⟩, if_pos rfl]
      · simp [hk]
    · next hge =>
      split
      · next heq =>
        subst heq
        rw [read_cell_append, read_cons]
        by_cases hk : k = j
        · subst hk
          by_cases hv : v = 0
          · simp [hv, read_below hm (Nat.lt_succ_self k)]
          · rw [if_pos ⟨rfl, hv⟩, if_pos rfl]
        · simp [hk]
      · next hne =>
        rw [read_cons, read_cons, ih hw]
        by_cases hk : k = j
        · subst hk; simp [Ne.symm hne]
        · simp [hk]

@[simp] theorem read_write_same {m : Memory} (h : wf m) (k : Nat) (v : Byte) : read (write m k v) k = v := by
  simp [read_write h]

theorem read_write_other {m : Memory} (h : wf m) {k j : Nat} (v : Byte) (hk : k ≠ j) :
    read (write m k v) j = read m j := by
  simp [read_write h, hk]

/-- Every index a write lists was listed before or is the one written. -/
theorem mem_write {m : Memory} {k : Nat} {v : Byte} {c : Host.Cell} (h : c ∈ write m k v) :
    c ∈ m ∨ (c = (k, v) ∧ v ≠ 0) := by
  have hcell : ∀ {c}, c ∈ cell k v → c = (k, v) ∧ v ≠ 0 := by
    intro c hc; unfold cell at hc; split at hc <;> simp_all
  induction m with
  | nil => exact .inr (hcell h)
  | cons d m ih =>
    obtain ⟨a, u⟩ := d
    simp only [write] at h
    split at h
    · rcases List.mem_append.1 h with h | h
      · exact .inr (hcell h)
      · exact .inl h
    · split at h
      · rcases List.mem_append.1 h with h | h
        · exact .inr (hcell h)
        · exact .inl (List.mem_cons_of_mem _ h)
      · rcases List.mem_cons.1 h with h | h
        · exact .inl (h ▸ List.mem_cons_self)
        · exact (ih h).imp (List.mem_cons_of_mem _) id

theorem allFrom_write {m : Memory} {lo k : Nat} (v : Byte) (h : allFrom lo m) (hk : lo ≤ k) :
    allFrom lo (write m k v) := by
  intro c hc
  rcases mem_write hc with hc | ⟨rfl, -⟩
  · exact h c hc
  · exact hk

/-- A write keeps the canonical form. -/
theorem wf_write {m : Memory} (h : wf m) (k : Nat) (v : Byte) : wf (write m k v) := by
  have wf_cell : ∀ {m}, wf m → allFrom (k + 1) m → wf (cell k v ++ m) := by
    intro m hm hk
    unfold cell
    split
    · exact hm
    · next hv => exact wf_cons.2 ⟨hv, hk, hm⟩
  induction m with
  | nil => simpa [write] using wf_cell wf_nil (by simp [allFrom])
  | cons c m ih =>
    obtain ⟨a, u⟩ := c
    obtain ⟨hu, hm, hw⟩ := wf_cons.1 h
    simp only [write]
    split
    · next hlt =>
      refine wf_cell h (allFrom_cons.2 ⟨hlt, fun c hc => ?_⟩)
      have := hm c hc
      simp only at this
      omega
    · next hge =>
      split
      · next heq => subst heq; exact wf_cell hw hm
      · next hne => exact wf_cons.2 ⟨hu, allFrom_write v hm (by simp only; omega), ih hw⟩

theorem wf_writeList {m : Memory} (h : wf m) (p : Nat) (vs : List Byte) : wf (writeList m p vs) := by
  induction vs generalizing m p with
  | nil => exact h
  | cons v vs ih => exact ih (wf_write h p v) _

theorem mem_writeList {m : Memory} {p : Nat} {vs : List Byte} {c : Host.Cell} (h : c ∈ writeList m p vs) :
    c ∈ m ∨ (p ≤ c.1 ∧ c.1 < p + vs.length) := by
  induction vs generalizing m p with
  | nil => exact .inl h
  | cons v vs ih =>
    rcases ih h with h | ⟨h1, h2⟩
    · rcases mem_write h with h | ⟨rfl, -⟩
      · exact .inl h
      · exact .inr ⟨by simp, by simp⟩
    · exact .inr ⟨by omega, by simp only [List.length_cons]; omega⟩

/-- A read after writing consecutive cells: inside them the value written, outside them what stood there. -/
theorem read_writeList {m : Memory} (h : wf m) (p : Nat) (vs : List Byte) (k : Nat) :
    read (writeList m p vs) k = if p ≤ k then vs.getD (k - p) (read m k) else read m k := by
  induction vs generalizing m p with
  | nil => simp [writeList]
  | cons v vs ih =>
    rw [writeList, ih (wf_write h p v), read_write h]
    by_cases hk : p = k
    · subst hk
      simp
    · by_cases hle : p ≤ k
      · obtain ⟨d, rfl⟩ : ∃ d, k = p + 1 + d := ⟨k - (p + 1), by omega⟩
        have h1 : p + 1 + d - p = d + 1 := by omega
        simp [hk, hle, h1]
      · simp [hk, hle, show ¬ p + 1 ≤ k by omega]

theorem read_writeList_inside {m : Memory} (h : wf m) (p : Nat) (vs : List Byte) {i : Nat} (hi : i < vs.length) :
    read (writeList m p vs) (p + i) = vs[i] := by
  rw [read_writeList h, if_pos (Nat.le_add_right _ _), Nat.add_sub_cancel_left, List.getD_eq_getElem _ _ hi]

theorem read_writeList_outside {m : Memory} (h : wf m) (p : Nat) (vs : List Byte) {k : Nat}
    (hk : ¬ (p ≤ k ∧ k < p + vs.length)) : read (writeList m p vs) k = read m k := by
  rw [read_writeList h]
  split
  · next hp => rw [List.getD_eq_default _ _ (by omega)]
  · rfl

theorem length_readList (m : Memory) (p w : Nat) : (readList m p w).length = w := by simp [readList]

theorem getElem_readList (m : Memory) (p w i : Nat) (hi : i < (readList m p w).length) :
    (readList m p w)[i] = read m (p + i) := by simp [readList]

/-- Canonical memories that read alike are equal. -/
theorem ext_of_wf {m m' : Memory} (h : wf m) (h' : wf m') (hr : ∀ k, read m k = read m' k) : m = m' := by
  induction m generalizing m' with
  | nil =>
    cases m' with
    | nil => rfl
    | cons c m' =>
      have := hr c.1
      rw [read_cons, if_pos rfl] at this
      exact absurd this.symm (wf_cons.1 h').1
  | cons c m ih =>
    obtain ⟨hc, hm, hw⟩ := wf_cons.1 h
    cases m' with
    | nil =>
      have := hr c.1
      rw [read_cons, if_pos rfl] at this
      exact absurd this hc
    | cons d m' =>
      obtain ⟨hd, hm', hw'⟩ := wf_cons.1 h'
      have hcd : c.1 = d.1 := by
        rcases Nat.lt_trichotomy c.1 d.1 with hlt | heq | hgt
        · have := hr c.1
          rw [read_cons, if_pos rfl, read_cons, if_neg (by omega), read_below hm' (by omega)] at this
          exact absurd this hc
        · exact heq
        · have := hr d.1
          rw [read_cons, if_neg (by omega), read_below hm (by omega), read_cons, if_pos rfl] at this
          exact absurd this.symm hd
      have hval : c.2 = d.2 := by
        have := hr c.1
        rwa [read_cons, if_pos rfl, read_cons, if_pos hcd.symm] at this
      have heads : c = d := Prod.ext hcd hval
      subst heads
      refine congrArg _ (ih hw hw' (fun k => ?_))
      by_cases hk : c.1 = k
      · subst hk
        rw [read_below hm (Nat.lt_succ_self _), read_below hm' (Nat.lt_succ_self _)]
      · simpa [read_cons, hk] using hr k

end Sys2Proof.Machine.Memory

namespace Sys2Proof.Machine.State

/-- A cell read after consecutive cells were written: inside them the value written. -/
theorem getCell_setCells_inside {s : State} (h : Memory.wf s.dmem) (p : Nat) (vs : List Byte) {i : Nat}
    (hi : i < vs.length) : (s.setCells p vs).getCell (p + i) = vs[i] :=
  Memory.read_writeList_inside h p vs hi

/-- A cell read after consecutive cells were written: outside them what stood there. -/
theorem getCell_setCells_outside {s : State} (h : Memory.wf s.dmem) (p : Nat) (vs : List Byte) {k : Nat}
    (hk : ¬(p ≤ k ∧ k < p + vs.length)) : (s.setCells p vs).getCell k = s.getCell k :=
  Memory.read_writeList_outside h p vs hk

end Sys2Proof.Machine.State
end

