-- ==== Sys2Proof/Laws/State.lean ====
section
/-! SUPPORT. One lemma per field per update of the state: what each named update sets and what it leaves. -/

namespace Sys2Proof.Machine.State

variable (s : State)

/-! `setN` -/

@[simp] theorem setN_cfg (r : Reg) (v : Int) : (s.setN r v).cfg = s.cfg := rfl
@[simp] theorem setN_n (r : Reg) (v : Int) : (s.setN r v).n = s.n.set r v := rfl
@[simp] theorem setN_dmem (r : Reg) (v : Int) : (s.setN r v).dmem = s.dmem := rfl
@[simp] theorem setN_dptr (r : Reg) (v : Int) : (s.setN r v).dptr = s.dptr := rfl
@[simp] theorem setN_cp (r : Reg) (v : Int) : (s.setN r v).cp = s.cp := rfl
@[simp] theorem setN_busy (r : Reg) (v : Int) : (s.setN r v).busy = s.busy := rfl
@[simp] theorem setN_done (r : Reg) (v : Int) : (s.setN r v).done = s.done := rfl
@[simp] theorem setN_err (r : Reg) (v : Int) : (s.setN r v).err = s.err := rfl
@[simp] theorem setN_rej (r : Reg) (v : Int) : (s.setN r v).rej = s.rej := rfl
@[simp] theorem setN_errcode (r : Reg) (v : Int) : (s.setN r v).errcode = s.errcode := rfl
@[simp] theorem setN_doneIe (r : Reg) (v : Int) : (s.setN r v).doneIe = s.doneIe := rfl
@[simp] theorem setN_errIe (r : Reg) (v : Int) : (s.setN r v).errIe = s.errIe := rfl
@[simp] theorem setN_cmdreg (r : Reg) (v : Int) : (s.setN r v).cmdreg = s.cmdreg := rfl
@[simp] theorem setN_agenda (r : Reg) (v : Int) : (s.setN r v).agenda = s.agenda := rfl
@[simp] theorem setN_hostData (r : Reg) (v : Int) : (s.setN r v).hostData = s.hostData := rfl

/-! `setCells` -/

@[simp] theorem setCells_cfg (p : Nat) (vs : List Byte) : (s.setCells p vs).cfg = s.cfg := rfl
@[simp] theorem setCells_n (p : Nat) (vs : List Byte) : (s.setCells p vs).n = s.n := rfl
@[simp] theorem setCells_dmem (p : Nat) (vs : List Byte) : (s.setCells p vs).dmem = Memory.writeList s.dmem p vs := rfl
@[simp] theorem setCells_dptr (p : Nat) (vs : List Byte) : (s.setCells p vs).dptr = s.dptr := rfl
@[simp] theorem setCells_cp (p : Nat) (vs : List Byte) : (s.setCells p vs).cp = s.cp := rfl
@[simp] theorem setCells_busy (p : Nat) (vs : List Byte) : (s.setCells p vs).busy = s.busy := rfl
@[simp] theorem setCells_done (p : Nat) (vs : List Byte) : (s.setCells p vs).done = s.done := rfl
@[simp] theorem setCells_err (p : Nat) (vs : List Byte) : (s.setCells p vs).err = s.err := rfl
@[simp] theorem setCells_rej (p : Nat) (vs : List Byte) : (s.setCells p vs).rej = s.rej := rfl
@[simp] theorem setCells_errcode (p : Nat) (vs : List Byte) : (s.setCells p vs).errcode = s.errcode := rfl
@[simp] theorem setCells_doneIe (p : Nat) (vs : List Byte) : (s.setCells p vs).doneIe = s.doneIe := rfl
@[simp] theorem setCells_errIe (p : Nat) (vs : List Byte) : (s.setCells p vs).errIe = s.errIe := rfl
@[simp] theorem setCells_cmdreg (p : Nat) (vs : List Byte) : (s.setCells p vs).cmdreg = s.cmdreg := rfl
@[simp] theorem setCells_agenda (p : Nat) (vs : List Byte) : (s.setCells p vs).agenda = s.agenda := rfl
@[simp] theorem setCells_hostData (p : Nat) (vs : List Byte) : (s.setCells p vs).hostData = s.hostData := rfl

/-! `setDptr` -/

@[simp] theorem setDptr_cfg (p : Nat) : (s.setDptr p).cfg = s.cfg := rfl
@[simp] theorem setDptr_n (p : Nat) : (s.setDptr p).n = s.n := rfl
@[simp] theorem setDptr_dmem (p : Nat) : (s.setDptr p).dmem = s.dmem := rfl
@[simp] theorem setDptr_dptr (p : Nat) : (s.setDptr p).dptr = BitVec.ofNat 16 p := rfl
@[simp] theorem setDptr_cp (p : Nat) : (s.setDptr p).cp = s.cp := rfl
@[simp] theorem setDptr_busy (p : Nat) : (s.setDptr p).busy = s.busy := rfl
@[simp] theorem setDptr_done (p : Nat) : (s.setDptr p).done = s.done := rfl
@[simp] theorem setDptr_err (p : Nat) : (s.setDptr p).err = s.err := rfl
@[simp] theorem setDptr_rej (p : Nat) : (s.setDptr p).rej = s.rej := rfl
@[simp] theorem setDptr_errcode (p : Nat) : (s.setDptr p).errcode = s.errcode := rfl
@[simp] theorem setDptr_doneIe (p : Nat) : (s.setDptr p).doneIe = s.doneIe := rfl
@[simp] theorem setDptr_errIe (p : Nat) : (s.setDptr p).errIe = s.errIe := rfl
@[simp] theorem setDptr_cmdreg (p : Nat) : (s.setDptr p).cmdreg = s.cmdreg := rfl
@[simp] theorem setDptr_agenda (p : Nat) : (s.setDptr p).agenda = s.agenda := rfl
@[simp] theorem setDptr_hostData (p : Nat) : (s.setDptr p).hostData = s.hostData := rfl

/-! `setCp` -/

@[simp] theorem setCp_cfg (b : Bool) : (s.setCp b).cfg = s.cfg := rfl
@[simp] theorem setCp_n (b : Bool) : (s.setCp b).n = s.n := rfl
@[simp] theorem setCp_dmem (b : Bool) : (s.setCp b).dmem = s.dmem := rfl
@[simp] theorem setCp_dptr (b : Bool) : (s.setCp b).dptr = s.dptr := rfl
@[simp] theorem setCp_cp (b : Bool) : (s.setCp b).cp = b := rfl
@[simp] theorem setCp_busy (b : Bool) : (s.setCp b).busy = s.busy := rfl
@[simp] theorem setCp_done (b : Bool) : (s.setCp b).done = s.done := rfl
@[simp] theorem setCp_err (b : Bool) : (s.setCp b).err = s.err := rfl
@[simp] theorem setCp_rej (b : Bool) : (s.setCp b).rej = s.rej := rfl
@[simp] theorem setCp_errcode (b : Bool) : (s.setCp b).errcode = s.errcode := rfl
@[simp] theorem setCp_doneIe (b : Bool) : (s.setCp b).doneIe = s.doneIe := rfl
@[simp] theorem setCp_errIe (b : Bool) : (s.setCp b).errIe = s.errIe := rfl
@[simp] theorem setCp_cmdreg (b : Bool) : (s.setCp b).cmdreg = s.cmdreg := rfl
@[simp] theorem setCp_agenda (b : Bool) : (s.setCp b).agenda = s.agenda := rfl
@[simp] theorem setCp_hostData (b : Bool) : (s.setCp b).hostData = s.hostData := rfl

/-! `issue` -/

@[simp] theorem issue_cfg (v : Word) : (s.issue v).cfg = s.cfg := rfl
@[simp] theorem issue_n (v : Word) : (s.issue v).n = s.n := rfl
@[simp] theorem issue_dmem (v : Word) : (s.issue v).dmem = s.dmem := rfl
@[simp] theorem issue_dptr (v : Word) : (s.issue v).dptr = s.dptr := rfl
@[simp] theorem issue_cp (v : Word) : (s.issue v).cp = s.cp := rfl
@[simp] theorem issue_busy (v : Word) : (s.issue v).busy = true := rfl
@[simp] theorem issue_done (v : Word) : (s.issue v).done = false := rfl
@[simp] theorem issue_err (v : Word) : (s.issue v).err = s.err := rfl
@[simp] theorem issue_rej (v : Word) : (s.issue v).rej = s.rej := rfl
@[simp] theorem issue_errcode (v : Word) : (s.issue v).errcode = s.errcode := rfl
@[simp] theorem issue_doneIe (v : Word) : (s.issue v).doneIe = s.doneIe := rfl
@[simp] theorem issue_errIe (v : Word) : (s.issue v).errIe = s.errIe := rfl
@[simp] theorem issue_cmdreg (v : Word) : (s.issue v).cmdreg = v := rfl
@[simp] theorem issue_agenda (v : Word) : (s.issue v).agenda = s.agenda := rfl
@[simp] theorem issue_hostData (v : Word) : (s.issue v).hostData = s.hostData := rfl

/-! `complete` -/

@[simp] theorem complete_cfg : (s.complete).cfg = s.cfg := rfl
@[simp] theorem complete_n : (s.complete).n = s.n := rfl
@[simp] theorem complete_dmem : (s.complete).dmem = s.dmem := rfl
@[simp] theorem complete_dptr : (s.complete).dptr = s.dptr := rfl
@[simp] theorem complete_cp : (s.complete).cp = s.cp := rfl
@[simp] theorem complete_busy : (s.complete).busy = false := rfl
@[simp] theorem complete_done : (s.complete).done = true := rfl
@[simp] theorem complete_err : (s.complete).err = s.err := rfl
@[simp] theorem complete_rej : (s.complete).rej = s.rej := rfl
@[simp] theorem complete_errcode : (s.complete).errcode = s.errcode := rfl
@[simp] theorem complete_doneIe : (s.complete).doneIe = s.doneIe := rfl
@[simp] theorem complete_errIe : (s.complete).errIe = s.errIe := rfl
@[simp] theorem complete_cmdreg : (s.complete).cmdreg = s.cmdreg := rfl
@[simp] theorem complete_agenda : (s.complete).agenda = s.agenda := rfl
@[simp] theorem complete_hostData : (s.complete).hostData = s.hostData := rfl

/-! `takeFault` -/

@[simp] theorem takeFault_cfg (c : FaultCode) : (s.takeFault c).cfg = s.cfg := rfl
@[simp] theorem takeFault_n (c : FaultCode) : (s.takeFault c).n = s.n := rfl
@[simp] theorem takeFault_dmem (c : FaultCode) : (s.takeFault c).dmem = s.dmem := rfl
@[simp] theorem takeFault_dptr (c : FaultCode) : (s.takeFault c).dptr = s.dptr := rfl
@[simp] theorem takeFault_cp (c : FaultCode) : (s.takeFault c).cp = s.cp := rfl
@[simp] theorem takeFault_busy (c : FaultCode) : (s.takeFault c).busy = false := rfl
@[simp] theorem takeFault_done (c : FaultCode) : (s.takeFault c).done = s.done := rfl
@[simp] theorem takeFault_err (c : FaultCode) : (s.takeFault c).err = true := rfl
@[simp] theorem takeFault_rej (c : FaultCode) : (s.takeFault c).rej = s.rej := rfl
@[simp] theorem takeFault_errcode (c : FaultCode) : (s.takeFault c).errcode = some c := rfl
@[simp] theorem takeFault_doneIe (c : FaultCode) : (s.takeFault c).doneIe = s.doneIe := rfl
@[simp] theorem takeFault_errIe (c : FaultCode) : (s.takeFault c).errIe = s.errIe := rfl
@[simp] theorem takeFault_cmdreg (c : FaultCode) : (s.takeFault c).cmdreg = s.cmdreg := rfl
@[simp] theorem takeFault_agenda (c : FaultCode) : (s.takeFault c).agenda = s.agenda := rfl
@[simp] theorem takeFault_hostData (c : FaultCode) : (s.takeFault c).hostData = s.hostData := rfl

/-! `ackFault` -/

@[simp] theorem ackFault_cfg : (s.ackFault).cfg = s.cfg := rfl
@[simp] theorem ackFault_n : (s.ackFault).n = s.n := rfl
@[simp] theorem ackFault_dmem : (s.ackFault).dmem = s.dmem := rfl
@[simp] theorem ackFault_dptr : (s.ackFault).dptr = s.dptr := rfl
@[simp] theorem ackFault_cp : (s.ackFault).cp = s.cp := rfl
@[simp] theorem ackFault_busy : (s.ackFault).busy = s.busy := rfl
@[simp] theorem ackFault_done : (s.ackFault).done = s.done := rfl
@[simp] theorem ackFault_err : (s.ackFault).err = false := rfl
@[simp] theorem ackFault_rej : (s.ackFault).rej = s.rej := rfl
@[simp] theorem ackFault_errcode : (s.ackFault).errcode = none := rfl
@[simp] theorem ackFault_doneIe : (s.ackFault).doneIe = s.doneIe := rfl
@[simp] theorem ackFault_errIe : (s.ackFault).errIe = s.errIe := rfl
@[simp] theorem ackFault_cmdreg : (s.ackFault).cmdreg = s.cmdreg := rfl
@[simp] theorem ackFault_agenda : (s.ackFault).agenda = s.agenda := rfl
@[simp] theorem ackFault_hostData : (s.ackFault).hostData = s.hostData := rfl

/-! `reject` -/

@[simp] theorem reject_cfg : (s.reject).cfg = s.cfg := rfl
@[simp] theorem reject_n : (s.reject).n = s.n := rfl
@[simp] theorem reject_dmem : (s.reject).dmem = s.dmem := rfl
@[simp] theorem reject_dptr : (s.reject).dptr = s.dptr := rfl
@[simp] theorem reject_cp : (s.reject).cp = s.cp := rfl
@[simp] theorem reject_busy : (s.reject).busy = s.busy := rfl
@[simp] theorem reject_done : (s.reject).done = s.done := rfl
@[simp] theorem reject_err : (s.reject).err = s.err := rfl
@[simp] theorem reject_rej : (s.reject).rej = true := rfl
@[simp] theorem reject_errcode : (s.reject).errcode = s.errcode := rfl
@[simp] theorem reject_doneIe : (s.reject).doneIe = s.doneIe := rfl
@[simp] theorem reject_errIe : (s.reject).errIe = s.errIe := rfl
@[simp] theorem reject_cmdreg : (s.reject).cmdreg = s.cmdreg := rfl
@[simp] theorem reject_agenda : (s.reject).agenda = s.agenda := rfl
@[simp] theorem reject_hostData : (s.reject).hostData = s.hostData := rfl

/-! `popTurn` -/

@[simp] theorem popTurn_cfg : (s.popTurn).cfg = s.cfg := rfl
@[simp] theorem popTurn_n : (s.popTurn).n = s.n := rfl
@[simp] theorem popTurn_dmem : (s.popTurn).dmem = s.dmem := rfl
@[simp] theorem popTurn_dptr : (s.popTurn).dptr = s.dptr := rfl
@[simp] theorem popTurn_cp : (s.popTurn).cp = s.cp := rfl
@[simp] theorem popTurn_busy : (s.popTurn).busy = s.busy := rfl
@[simp] theorem popTurn_done : (s.popTurn).done = s.done := rfl
@[simp] theorem popTurn_err : (s.popTurn).err = s.err := rfl
@[simp] theorem popTurn_rej : (s.popTurn).rej = s.rej := rfl
@[simp] theorem popTurn_errcode : (s.popTurn).errcode = s.errcode := rfl
@[simp] theorem popTurn_doneIe : (s.popTurn).doneIe = s.doneIe := rfl
@[simp] theorem popTurn_errIe : (s.popTurn).errIe = s.errIe := rfl
@[simp] theorem popTurn_cmdreg : (s.popTurn).cmdreg = s.cmdreg := rfl
@[simp] theorem popTurn_agenda : (s.popTurn).agenda = s.agenda.tail := rfl
@[simp] theorem popTurn_hostData : (s.popTurn).hostData = s.hostData := rfl

/-! `resetBlock` -/

@[simp] theorem resetBlock_cfg : (s.resetBlock).cfg = s.cfg := rfl
@[simp] theorem resetBlock_n : (s.resetBlock).n = Vector.replicate 8 0 := rfl
@[simp] theorem resetBlock_dmem : (s.resetBlock).dmem = [] := rfl
@[simp] theorem resetBlock_dptr : (s.resetBlock).dptr = 0 := rfl
@[simp] theorem resetBlock_cp : (s.resetBlock).cp = false := rfl
@[simp] theorem resetBlock_busy : (s.resetBlock).busy = false := rfl
@[simp] theorem resetBlock_done : (s.resetBlock).done = false := rfl
@[simp] theorem resetBlock_err : (s.resetBlock).err = false := rfl
@[simp] theorem resetBlock_rej : (s.resetBlock).rej = false := rfl
@[simp] theorem resetBlock_errcode : (s.resetBlock).errcode = none := rfl
@[simp] theorem resetBlock_doneIe : (s.resetBlock).doneIe = false := rfl
@[simp] theorem resetBlock_errIe : (s.resetBlock).errIe = false := rfl
@[simp] theorem resetBlock_cmdreg : (s.resetBlock).cmdreg = 0 := rfl
@[simp] theorem resetBlock_agenda : (s.resetBlock).agenda = s.agenda := rfl
@[simp] theorem resetBlock_hostData : (s.resetBlock).hostData = s.hostData := rfl

/-! `writeInten` -/

@[simp] theorem writeInten_cfg (v : Word) : (s.writeInten v).cfg = s.cfg := rfl
@[simp] theorem writeInten_n (v : Word) : (s.writeInten v).n = s.n := rfl
@[simp] theorem writeInten_dmem (v : Word) : (s.writeInten v).dmem = s.dmem := rfl
@[simp] theorem writeInten_dptr (v : Word) : (s.writeInten v).dptr = s.dptr := rfl
@[simp] theorem writeInten_cp (v : Word) : (s.writeInten v).cp = s.cp := rfl
@[simp] theorem writeInten_busy (v : Word) : (s.writeInten v).busy = s.busy := rfl
@[simp] theorem writeInten_done (v : Word) : (s.writeInten v).done = s.done := rfl
@[simp] theorem writeInten_err (v : Word) : (s.writeInten v).err = s.err := rfl
@[simp] theorem writeInten_rej (v : Word) : (s.writeInten v).rej = s.rej := rfl
@[simp] theorem writeInten_errcode (v : Word) : (s.writeInten v).errcode = s.errcode := rfl
@[simp] theorem writeInten_doneIe (v : Word) : (s.writeInten v).doneIe = v.getLsbD 1 := rfl
@[simp] theorem writeInten_errIe (v : Word) : (s.writeInten v).errIe = v.getLsbD 2 := rfl
@[simp] theorem writeInten_cmdreg (v : Word) : (s.writeInten v).cmdreg = s.cmdreg := rfl
@[simp] theorem writeInten_agenda (v : Word) : (s.writeInten v).agenda = s.agenda := rfl
@[simp] theorem writeInten_hostData (v : Word) : (s.writeInten v).hostData = s.hostData := rfl

/-! Reading back what an update wrote -/

@[simp] theorem getN_setN_same (r : Reg) (v : Int) : (s.setN r v).getN r = v := by simp [getN, setN]

theorem getN_setN_other {r r' : Reg} (v : Int) (h : r ≠ r') : (s.setN r v).getN r' = s.getN r' := by
  simp only [getN, setN, Fin.getElem_fin]
  exact Vector.getElem_set_ne _ _ (fun e => h (Fin.ext e))

theorem getN_setN (r r' : Reg) (v : Int) : (s.setN r v).getN r' = if r = r' then v else s.getN r' := by
  split
  · next h => subst h; simp
  · next h => exact getN_setN_other s v h

@[simp] theorem getCell_setN (r : Reg) (v : Int) (k : Nat) : (s.setN r v).getCell k = s.getCell k := rfl
@[simp] theorem getN_setCells (p : Nat) (vs : List Byte) (r' : Reg) : (s.setCells p vs).getN r' = s.getN r' := rfl
@[simp] theorem getN_setDptr (p : Nat) (r' : Reg) : (s.setDptr p).getN r' = s.getN r' := rfl
@[simp] theorem getCell_setDptr (p : Nat) (k : Nat) : (s.setDptr p).getCell k = s.getCell k := rfl
@[simp] theorem getN_setCp (b : Bool) (r' : Reg) : (s.setCp b).getN r' = s.getN r' := rfl
@[simp] theorem getCell_setCp (b : Bool) (k : Nat) : (s.setCp b).getCell k = s.getCell k := rfl
@[simp] theorem getN_issue (v : Word) (r' : Reg) : (s.issue v).getN r' = s.getN r' := rfl
@[simp] theorem getCell_issue (v : Word) (k : Nat) : (s.issue v).getCell k = s.getCell k := rfl
@[simp] theorem getN_complete (r' : Reg) : (s.complete).getN r' = s.getN r' := rfl
@[simp] theorem getCell_complete (k : Nat) : (s.complete).getCell k = s.getCell k := rfl
@[simp] theorem getN_takeFault (c : FaultCode) (r' : Reg) : (s.takeFault c).getN r' = s.getN r' := rfl
@[simp] theorem getCell_takeFault (c : FaultCode) (k : Nat) : (s.takeFault c).getCell k = s.getCell k := rfl
@[simp] theorem getN_ackFault (r' : Reg) : (s.ackFault).getN r' = s.getN r' := rfl
@[simp] theorem getCell_ackFault (k : Nat) : (s.ackFault).getCell k = s.getCell k := rfl
@[simp] theorem getN_reject (r' : Reg) : (s.reject).getN r' = s.getN r' := rfl
@[simp] theorem getCell_reject (k : Nat) : (s.reject).getCell k = s.getCell k := rfl
@[simp] theorem getN_popTurn (r' : Reg) : (s.popTurn).getN r' = s.getN r' := rfl
@[simp] theorem getCell_popTurn (k : Nat) : (s.popTurn).getCell k = s.getCell k := rfl
@[simp] theorem getN_writeInten (v : Word) (r' : Reg) : (s.writeInten v).getN r' = s.getN r' := rfl
@[simp] theorem getCell_writeInten (v : Word) (k : Nat) : (s.writeInten v).getCell k = s.getCell k := rfl

@[simp] theorem getN_resetBlock (r : Reg) : s.resetBlock.getN r = 0 := by
  simp [getN, Vector.getElem_replicate]

@[simp] theorem getCell_resetBlock (k : Nat) : s.resetBlock.getCell k = 0 := rfl

/-- Two states are equal when every register read and every other field agree. -/
theorem n_ext {n m : Vector Int 8} (h : ∀ r : Reg, n[r] = m[r]) : n = m :=
  Vector.ext (fun i hi => h ⟨i, hi⟩)

end Sys2Proof.Machine.State
end

