-- ==== Sys2Proof/Laws/Ops.lean ====
section
/-! SUPPORT. What a step can do, said once: the commit and the fault, every command, and every turn. -/

namespace Sys2Proof.Machine

@[simp] theorem commit_eq (s : State) : commit s = .next s.complete := rfl

@[simp] theorem raise_eq (c : FaultCode) (s : State) : raise c s = .next (s.takeFault c) := rfl

/-- Everything a command can do: fault, changing nothing else, or complete, with new values for registers, cells,
DPTR and CP only (R102, R104). -/
theorem exec_cases (i : Instr) (s : State) :
    (∃ c, exec i s = .next (s.takeFault c)) ∨
    (∃ n dmem dptr cp, exec i s = .next { s with n := n, dmem := dmem, dptr := dptr, cp := cp }.complete) := by
  cases i <;>
    simp only [exec, execEgcd, execCoprime, execModinv, execModexp, execDenc, execDdec, commit_eq, raise_eq] <;>
    (try split_ifs) <;> first
      | exact .inl ⟨_, rfl⟩
      | exact .inr ⟨_, _, _, _, rfl⟩

/-- A command always answers a next state. -/
theorem exec_next (i : Instr) (s : State) : ∃ t, exec i s = .next t := by
  rcases exec_cases i s with ⟨c, h⟩ | ⟨n, dmem, dptr, cp, h⟩ <;> exact ⟨_, h⟩

/-- R102: the commit of the word in CMDREG, in progress. -/
theorem engineTurn_busy {s : State} (h : s.busy = true) : engineTurn s = commitCmd s := by simp [engineTurn, h]

theorem engineTurn_idle {s : State} (h : s.busy = false) : engineTurn s = .next s := by simp [engineTurn, h]

theorem commitCmd_of_decode {s : State} {i : Instr} (h : decode s.cmdreg = .ok i) : commitCmd s = exec i s := by
  simp [commitCmd, h]

theorem commitCmd_of_illegal {s : State} {w : IllegalWord} (h : decode s.cmdreg = .error w) :
    commitCmd s = .next (s.takeFault .illegal) := by
  simp [commitCmd, h]

/-- What the port can express, and what it names. -/
theorem portLoc_ok {addr size : Nat} {loc : Loc} (h : portLoc addr size = .ok loc) :
    size = 4 ∧ addr % 4 = 0 ∧ addr ≤ 0x7FFC ∧ loc = locOf addr := by
  unfold portLoc at h
  split_ifs at h with h1 h2 h3
  exact ⟨not_ne_iff.1 h1, not_ne_iff.1 h2, Nat.not_lt.1 h3, by simpa using h.symm⟩

theorem portLoc_of {addr : Nat} (h4 : addr % 4 = 0) (h : addr ≤ 0x7FFC) : portLoc addr 4 = .ok (locOf addr) := by
  simp [portLoc, h4, Nat.not_lt.2 h]

/-- Everything a host turn that answers a next state can do. -/
theorem hostTurn_cases {a : HostAccess} {s t : State} (h : hostTurn a s = .next t) :
    (∃ addr size loc, a = .read addr size ∧ portLoc addr size = .ok loc ∧ t = { s with hostData := s.readLoc loc }) ∨
    (∃ addr size v loc, a = .write addr size v ∧ portLoc addr size = .ok loc ∧ t = s.writeLoc v loc) := by
  cases a with
  | read addr size =>
    simp only [hostTurn] at h
    split at h
    · next loc hl => exact .inl ⟨addr, size, loc, rfl, hl, by simpa using h.symm⟩
    · cases h
  | write addr size v =>
    simp only [hostTurn] at h
    split at h
    · next loc hl => exact .inr ⟨addr, size, v, loc, rfl, hl, by simpa using h.symm⟩
    · cases h

/-- Everything an engine turn can do. -/
theorem engineTurn_cases {s t : State} (h : engineTurn s = .next t) :
    (s.busy = false ∧ t = s) ∨
    (s.busy = true ∧ (∃ w, decode s.cmdreg = .error w) ∧ t = s.takeFault .illegal) ∨
    (s.busy = true ∧ ∃ i, decode s.cmdreg = .ok i ∧ exec i s = .next t) := by
  cases hb : s.busy with
  | false =>
    rw [engineTurn_idle hb] at h
    exact .inl ⟨rfl, by simpa using h.symm⟩
  | true =>
    rw [engineTurn_busy hb] at h
    cases hd : decode s.cmdreg with
    | error w =>
      rw [commitCmd_of_illegal hd] at h
      exact .inr (.inl ⟨rfl, ⟨w, rfl⟩, by simpa using h.symm⟩)
    | ok i =>
      rw [commitCmd_of_decode hd] at h
      exact .inr (.inr ⟨rfl, i, rfl, h⟩)

/-- Everything a step that answers a next state can do: `u` is the state with the turn taken off the agenda. -/
theorem step_cases {s t : State} (h : step s = .next t) :
    (∃ a, nextTurn s = .host a ∧ hostTurn a s.popTurn = .next t) ∨
    (nextTurn s = .engine ∧ engineTurn s.popTurn = .next t) ∨
    (nextTurn s = .reset ∧ t = s.popTurn.resetBlock) := by
  unfold step at h
  cases hn : nextTurn s with
  | host a => rw [hn] at h; exact .inl ⟨a, rfl, h⟩
  | engine => rw [hn] at h; exact .inr (.inl ⟨rfl, h⟩)
  | reset => rw [hn] at h; exact .inr (.inr ⟨rfl, by simpa [takeTurn] using h.symm⟩)

/-- The engine's turn always answers a next state: nothing is stuck (R206). -/
theorem engineTurn_next (s : State) : ∃ t, engineTurn s = .next t := by
  cases hb : s.busy with
  | false => exact ⟨s, engineTurn_idle hb⟩
  | true =>
    rw [engineTurn_busy hb]
    cases hd : decode s.cmdreg with
    | error w => exact ⟨_, commitCmd_of_illegal hd⟩
    | ok i => rw [commitCmd_of_decode hd]; exact exec_next i s

end Sys2Proof.Machine
end

