-- ==== Sys2Proof/Laws/Port.lean ====
section
/-! SUPPORT. The register map and its words: which offsets name a window word, and how the 32-bit words of a register
spell its signed value. -/

namespace Sys2Proof.Machine

theorem locOf_nWordAddr (i : Reg) (j : Nat) (hj : j < 256) : locOf (nWordAddr i j) = .nWord i j := by
  have hi := i.isLt
  have hr : Fin.ofNat 8 ((nWordAddr i j - 0x1000) / 0x400) = i := by
    apply Fin.ext
    simp only [Fin.val_ofNat, nWordAddr]
    omega
  have hw : (nWordAddr i j - 0x1000) % 0x400 / 4 = j := by unfold nWordAddr; omega
  unfold locOf
  split_ifs <;> first
    | rw [hr, hw]
    | (unfold nWordAddr at *; omega)

theorem locOf_dWordAddr (w : Nat) : locOf (dWordAddr w) = .dWord w := by
  have hw : (dWordAddr w - 0x4000) / 4 = w := by unfold dWordAddr; omega
  unfold locOf
  split_ifs <;> first
    | rw [hw]
    | (unfold dWordAddr at *; omega)

theorem portLoc_nWordAddr (i : Reg) (j : Nat) (hj : j < 256) : portLoc (nWordAddr i j) 4 = .ok (.nWord i j) := by
  have hi := i.isLt
  rw [portLoc_of (by unfold nWordAddr; omega) (by unfold nWordAddr; omega), locOf_nWordAddr i j hj]

theorem portLoc_dWordAddr (w : Nat) (hw : w < 4096) : portLoc (dWordAddr w) 4 = .ok (.dWord w) := by
  rw [portLoc_of (by unfold dWordAddr; omega) (by unfold dWordAddr; omega), locOf_dWordAddr]

theorem sext_lt (n : Nat) (v : Int) : sext n v < 2 ^ n := by
  have hp : (0 : Int) < ((2 ^ n : Nat) : Int) := by exact_mod_cast Nat.two_pow_pos n
  have h1 := Int.emod_nonneg v hp.ne'
  have h2 := Int.emod_lt_of_pos v hp
  unfold sext
  omega

/-- R11: `signed` undoes `sext` on the values the register holds. -/
theorem signed_sext {n : Nat} (hn : 0 < n) {v : Int} (h1 : -((2 ^ (n - 1) : Nat) : Int) ≤ v)
    (h2 : v < ((2 ^ (n - 1) : Nat) : Int)) : signed n (sext n v) = v := by
  obtain ⟨m, rfl⟩ : ∃ m, n = m + 1 := ⟨n - 1, by omega⟩
  simp only [Nat.add_sub_cancel] at h1 h2
  have e : ((2 ^ (m + 1) : Nat) : Int) = 2 * ((2 ^ m : Nat) : Int) := by push_cast; ring
  unfold signed sext
  simp only [Nat.add_sub_cancel]
  rw [e]
  by_cases hv : 0 ≤ v
  · rw [Int.emod_eq_of_lt hv (by omega)]
    rw [if_pos (by omega)]
    omega
  · have : v % (2 * ((2 ^ m : Nat) : Int)) = v + 2 * ((2 ^ m : Nat) : Int) := by
      rw [← Int.add_emod_right, Int.emod_eq_of_lt (by omega) (by omega)]
    rw [this, if_neg (by omega)]
    omega

/-- R11: `sext` undoes `signed` on the words of the width. -/
theorem sext_signed {n u : Nat} (hu : u < 2 ^ n) : sext n (signed n u) = u := by
  have hu' : (u : Int) < ((2 ^ n : Nat) : Int) := by exact_mod_cast hu
  unfold sext signed
  split
  · rw [Int.emod_eq_of_lt (by omega) hu']; simp
  · rw [Int.sub_emod_right, Int.emod_eq_of_lt (by omega) hu']; simp

/-- R57: the signed value of a word of the width is in the register's range. -/
theorem signed_range {n u : Nat} (hn : 0 < n) (hu : u < 2 ^ n) :
    -((2 ^ (n - 1) : Nat) : Int) ≤ signed n u ∧ signed n u < ((2 ^ (n - 1) : Nat) : Int) := by
  obtain ⟨m, rfl⟩ : ∃ m, n = m + 1 := ⟨n - 1, by omega⟩
  have e : ((2 ^ (m + 1) : Nat) : Int) = 2 * ((2 ^ m : Nat) : Int) := by push_cast; ring
  have hu' : (u : Int) < ((2 ^ (m + 1) : Nat) : Int) := by exact_mod_cast hu
  unfold signed
  simp only [Nat.add_sub_cancel] at *
  rw [e] at *
  split
  · next h =>
    have : (u : Int) < ((2 ^ m : Nat) : Int) := by exact_mod_cast h
    omega
  · next h =>
    have : ((2 ^ m : Nat) : Int) ≤ (u : Int) := by exact_mod_cast Nat.not_lt.1 h
    omega

/-- `wordAt` as a number (R51 (b)). -/
theorem toNat_wordAt (u j : Nat) : (wordAt u j).toNat = u / 2 ^ (32 * j) % 2 ^ 32 := by
  simp [wordAt, BitVec.toNat_ofNat]

/-- R57: the word written is the word read back. -/
theorem wordAt_putWord_same (u j : Nat) (v : Word) : wordAt (putWord u j v) j = v := by
  apply BitVec.eq_of_toNat_eq
  rw [toNat_wordAt]
  have hv : v.toNat < 2 ^ 32 := v.isLt
  have hp : 0 < 2 ^ (32 * j) := Nat.two_pow_pos _
  have hlo : u % 2 ^ (32 * j) < 2 ^ (32 * j) := Nat.mod_lt _ hp
  have e : putWord u j v =
      u % 2 ^ (32 * j) + 2 ^ (32 * j) * (v.toNat + 2 ^ 32 * (u / 2 ^ (32 * (j + 1)))) := by
    unfold putWord
    rw [show 32 * (j + 1) = 32 * j + 32 by ring, pow_add]
    ring
  rw [e, Nat.add_mul_div_left _ _ hp, Nat.div_eq_of_lt hlo, Nat.zero_add, Nat.add_mul_mod_self_left,
    Nat.mod_eq_of_lt hv]

/-- R57: replacing one implemented word of a register's pattern keeps it inside the register's width. -/
theorem putWord_lt {u n j : Nat} (v : Word) (hu : u < 2 ^ (32 * n)) (hj : j < n) : putWord u j v < 2 ^ (32 * n) := by
  have hv : v.toNat + 1 ≤ 2 ^ 32 := v.isLt
  obtain ⟨m, rfl⟩ : ∃ m, n = m + (j + 1) := ⟨n - (j + 1), by omega⟩
  have e : 2 ^ (32 * (m + (j + 1))) = 2 ^ (32 * m) * 2 ^ (32 * (j + 1)) := by rw [Nat.mul_add, pow_add]
  have e2 : 2 ^ (32 * (j + 1)) = 2 ^ 32 * 2 ^ (32 * j) := by rw [show 32 * (j + 1) = 32 + 32 * j by ring, pow_add]
  have hhi : u / 2 ^ (32 * (j + 1)) + 1 ≤ 2 ^ (32 * m) :=
    Nat.div_lt_of_lt_mul (by rw [mul_comm, ← e]; exact hu)
  have hlo : u % 2 ^ (32 * j) < 2 ^ (32 * j) := Nat.mod_lt _ (Nat.two_pow_pos _)
  have hmid : v.toNat * 2 ^ (32 * j) + 2 ^ (32 * j) ≤ 2 ^ (32 * (j + 1)) := by
    rw [e2, ← Nat.succ_mul]; exact Nat.mul_le_mul_right _ hv
  have htop : u / 2 ^ (32 * (j + 1)) * 2 ^ (32 * (j + 1)) + 2 ^ (32 * (j + 1)) ≤ 2 ^ (32 * (m + (j + 1))) := by
    rw [e, ← Nat.succ_mul]; exact Nat.mul_le_mul_right _ hhi
  have sum : ∀ {a b c P Q R : Nat}, a + P ≤ R → b + Q ≤ P → c < Q → a + b + c < R := by intros; omega
  exact sum htop hmid hlo

/-- R28: everything a host write to STATUS does. -/
theorem writeStatus_eq (s : State) (v : Word) : s.writeStatus v = { s with
    done := s.done && !v.getLsbD 1
    err := s.err && !v.getLsbD 2
    errcode := if v.getLsbD 2 then none else s.errcode
    rej := s.rej && !v.getLsbD 4 } := by
  unfold State.writeStatus State.ackFault
  cases v.getLsbD 1 <;> cases v.getLsbD 2 <;> cases v.getLsbD 4 <;> simp

end Sys2Proof.Machine
end

