-- ==== Sys2Proof/Laws/HostSequences.lean ====
section
/-! SUPPORT. What the smallest pieces of a host procedure do: one write, one read; that a procedure's turn is a step of
the machine; and the digits a message is cut into. -/

namespace Sys2Proof.Machine

/-- A turn a procedure takes is the step of the machine with that turn first on the agenda. -/
theorem step_cons (t : Turn) (s : State) : step { s with agenda := t :: s.agenda } = takeTurn t s := rfl

theorem writeReg_ok {off : Nat} {loc : Loc} (v : Word) (s : State) (h : portLoc off 4 = .ok loc) :
    writeReg off v s = .ok () (s.writeLoc v loc) := by
  simp [writeReg, hostStep, takeTurn, hostTurn, h]

theorem readReg_ok {off : Nat} {loc : Loc} (s : State) (h : portLoc off 4 = .ok loc) :
    readReg off s = .ok (s.readLoc loc) { s with hostData := s.readLoc loc } := by
  simp [readReg, hostStep, takeTurn, hostTurn, h, bind, EStateM.bind, get, getThe, MonadStateOf.get, EStateM.get,
    pure, EStateM.pure]

@[simp] theorem length_digitString (text : List Nat) : (digitString text).length = 3 * text.length := by
  induction text with
  | nil => rfl
  | cons c cs ih => simp [digitString, length_digits] at ih ⊢; omega

@[simp] theorem length_paddingDigits (total blockLen : Nat) (pads : Nat → Byte) :
    (paddingDigits total blockLen pads).length = paddingCount total blockLen := by simp [paddingDigits]

@[simp] theorem length_slices (w count : Nat) (ds : List Byte) : (slices w count ds).length = count := by
  induction count generalizing ds with
  | zero => rfl
  | succ count ih => simp [slices, ih]

/-- Slices concatenated are the digits they were cut from. -/
theorem flatten_slices (w count : Nat) (ds : List Byte) : (slices w count ds).flatten = ds.take (count * w) := by
  induction count generalizing ds with
  | zero => simp [slices]
  | succ count ih => rw [slices, List.flatten_cons, ih, Nat.succ_mul, Nat.add_comm, List.take_add]

end Sys2Proof.Machine
end

