-- ==== Sys2Proof/Laws/Operands.lean ====
section
/-! SUPPORT. The digit field at DPTR: what the checks of DENC and DDEC say, and what the field holds. -/

namespace Sys2Proof.Machine

theorem State.fieldOutside_iff (s : State) (w : Nat) : s.fieldOutside w = true ↔ s.cfg.dlen < s.fieldStart + w := by
  simp [State.fieldOutside]

theorem State.length_field (s : State) (w : Nat) : (s.field w).length = w := Memory.length_readList _ _ _

theorem State.getElem_field (s : State) (w i : Nat) (hi : i < (s.field w).length) :
    (s.field w)[i] = s.getCell (s.fieldStart + i) := Memory.getElem_readList _ _ _ _ hi

/-- The field one cell longer is the field and the next cell. -/
theorem State.field_succ (s : State) (w : Nat) : s.field (w + 1) = s.field w ++ [s.getCell (s.fieldStart + w)] := by
  simp [State.field, Memory.readList, List.range_succ, State.getCell]

/-- R154: the check DDEC makes on its field, cell by cell. -/
theorem allDigits_field (s : State) (w : Nat) :
    allDigits (s.field w) = true ↔ ∀ i, i < w → (s.getCell (s.fieldStart + i)).toNat ≤ 9 := by
  simp [allDigits, State.field, Memory.readList, State.getCell]

end Sys2Proof.Machine
end

