-- ==== Sys2Proof/Laws/PerInstr.lean ====
section
/-! SUPPORT. Statements for all instructions, one lemma per constructor. -/

namespace Sys2Proof.Laws.Opcode

/-- R84: the OPC field of a command's word is the opcode of its row (the top byte of the row's match). -/
def Statement (i : Instr) : Prop := bits (encode i) 31 24 = (opcodeRow i).value.toNat / 2 ^ 24

theorem egcd (rd rx ry ra rb : Reg) : Statement (.egcd rd rx ry ra rb) := by
  simp [Statement, bits, encode, formatR, opcodeRow]; omega

theorem coprime (ra rb : Reg) : Statement (.coprime ra rb) := by
  simp [Statement, bits, encode, formatR, opcodeRow]; omega

theorem modinv (rd ra rb : Reg) : Statement (.modinv rd ra rb) := by
  simp [Statement, bits, encode, formatR, opcodeRow]; omega

theorem modexp (rd ra rb rc : Reg) : Statement (.modexp rd ra rb rc) := by
  simp [Statement, bits, encode, formatR, opcodeRow]; omega

theorem denc (ra : Reg) (width : BitVec 12) : Statement (.denc ra width) := by
  simp [Statement, bits, encode, formatD, opcodeRow]; omega

theorem ddec (rd : Reg) (width : BitVec 12) : Statement (.ddec rd width) := by
  simp [Statement, bits, encode, formatD, opcodeRow]; omega

end Sys2Proof.Laws.Opcode
end

