-- ==== Sys2Proof/Tests/Slice0.lean ====
section
/-! SUPPORT. The model's own tests: the smoke test of WellFormed, the decoder on words written out from the spec's
encodings, one step of each command on vectors of spec/95_test_vectors.md, the register map, and a witness for the
hypotheses of every obligation that has some. Expected values are the spec's, not the model's. -/

namespace Sys2Proof.Tests
open Sys2Proof.Machine

/-! ### Helpers -/

/-- The reset state of the instance of the spec's vectors (XLEN = 64, DLEN = 16) with registers loaded. -/
def loaded (l : List (Reg × Int)) : State := l.foldl (fun s p => s.setN p.1 p.2) State.reset

/-- The state after the one step that runs `w`. -/
def ran (s : State) (w : Word) : Option State :=
  match step (s.engineToRun w) with
  | .next t => some t
  | _ => none

def isOk {α : Type} : EStateM.Result HostAbort State α → Bool
  | .ok _ _ => true
  | .error _ _ => false

theorem ok_of {α : Type} {r : EStateM.Result HostAbort State α} (h : isOk r = true) : ∃ a t, r = .ok a t := by
  cases r with
  | ok a t => exact ⟨a, t, rfl⟩
  | error e t => cases h

/-- The invariant of a concrete state, from its parts. -/
theorem inv_of {s : State} (h : s.cfg.Legal ∧ (∀ r : Reg, s.cfg.minN ≤ s.getN r ∧ s.getN r ≤ s.cfg.maxN) ∧
    Memory.wf s.dmem ∧ (∀ c ∈ s.dmem, c.1 < s.cfg.dlen) ∧ (s.busy = true → s.done = false ∧ s.err = false) ∧
    (s.err = true ↔ s.errcode ≠ none) ∧ (s.done = true → s.err = false)) : s.Inv :=
  ⟨h.1, h.2.1, h.2.2.1, h.2.2.2.1, h.2.2.2.2.1, h.2.2.2.2.2.1, h.2.2.2.2.2.2⟩

/-! ### WellFormed: each check refuses an ill-formed term -/

theorem smoke_egcd_rd_rx : (Instr.egcd 0 0 1 3 4).wellFormed = false := by decide
theorem smoke_egcd_rd_ry : (Instr.egcd 0 1 0 3 4).wellFormed = false := by decide
theorem smoke_egcd_rx_ry : (Instr.egcd 2 1 1 3 4).wellFormed = false := by decide
theorem smoke_denc_width : (Instr.denc 1 0).wellFormed = false := by decide
theorem smoke_ddec_width : (Instr.ddec 1 0).wellFormed = false := by decide

/-! ### The decoder, on words written out field by field from R81 and R84 -/

/-- OPC 00000001, RD 101, RX 110, RY 111, RA 001, RB 010, RC 000, ZERO6 000000. -/
theorem test_decode_egcd : decodeTableWord 32 0b00000001101110111001010000000000 = some (.egcd 5 6 7 1 2) := by decide
/-- OPC 00000010, RD RX RY 000000000, RA 001, RB 010, RC 000, ZERO6 000000. -/
theorem test_decode_coprime : decodeTableWord 32 0b00000010000000000001010000000000 = some (.coprime 1 2) := by decide
/-- OPC 00000011, RD 011, RX RY 000000, RA 001, RB 010, RC 000, ZERO6 000000. -/
theorem test_decode_modinv : decodeTableWord 32 0b00000011011000000001010000000000 = some (.modinv 3 1 2) := by decide
/-- OPC 00000100, RD 111, RX RY 000000, RA 100, RB 101, RC 110, ZERO6 000000. -/
theorem test_decode_modexp : decodeTableWord 32 0b00000100111000000100101110000000 = some (.modexp 7 4 5 6) := by decide
/-- OPC 00010000, RD 000, ZERO6H 000000, RA 011, WIDTH 000000000011. -/
theorem test_decode_denc : decodeTableWord 32 0b00010000000000000011000000000011 = some (.denc 3 3) := by decide
/-- OPC 00010001, RD 111, ZERO6H 000000, RA 000, WIDTH 111111111111. -/
theorem test_decode_ddec : decodeTableWord 32 0b00010001111000000000111111111111 = some (.ddec 7 4095) := by decide

/-- The words spec/95_test_vectors.md 2.7 calls illegal. -/
theorem test_illegal_words :
    [0x0100B800, 0x01040000, 0x01053801, 0x01053840, 0x02201400, 0x02001440, 0x03041400, 0x04E04B81, 0x04E0CB80,
      0x10003000, 0x10203003, 0x1000B003, 0x11801003, 0x11800000, 0x00000000, 0x05000000, 0x0F000000, 0x12000003,
      0x80000000, 0xFFFFFFFF].all (fun w => decodeTableWord 32 w == none) = true := by decide

/-- The legal words of 2.7 that no other test holds. -/
theorem test_legal_words :
    decodeTableWord 32 0x014E0200 = some (.egcd 2 3 4 0 1) ∧ decodeTableWord 32 0x01088000 = some (.egcd 0 2 1 0 0) ∧
      decodeTableWord 32 0x02000000 = some (.coprime 0 0) ∧ decodeTableWord 32 0x03000000 = some (.modinv 0 0 0) ∧
      decodeTableWord 32 0x04000000 = some (.modexp 0 0 0 0) := by decide

/-- Why a word is illegal (R87). -/
theorem test_illegal_names :
    (match decode 0x0100B800, decode 0x02001440, decode 0x10003000, decode 0x12000003 with
      | .error a, .error b, .error c, .error d => [a, b, c, d]
      | _, _, _, _ => []) =
    [.equalDestinations, .nonzeroFixedField, .zeroWidth, .unassignedOpcode] := by decide

/-! ### One step of each command -/

/-- V-EGCD-11: xgcd(−240, 46) = (2, 9, 47). -/
theorem test_egcd : (ran (loaded [(3, -240), (4, 46)]) 0x01053800).map
    (fun t => (t.getN 0, t.getN 1, t.getN 2, t.statusWord)) = some (2, 9, 47, 0x02) := by decide

/-- V-EGCD-25: (MINN, MINN) faults RANGE and writes nothing. -/
theorem test_egcd_range :
    (ran (loaded [(3, -9223372036854775808), (4, -9223372036854775808), (0, 7)]) 0x01053800).map
      (fun t => (t.getN 0, t.statusWord, t.errcodeWord)) = some (7, 0x04, 5) := by decide

/-- V-CP-1: 17 and 3120 are coprime. -/
theorem test_coprime : (ran (loaded [(1, 17), (2, 3120)]) 0x02001400).map (fun t => t.statusWord) = some 0x0A := by
  decide

/-- V-CP-12: no RANGE fault in COPRIME. -/
theorem test_coprime_minn :
    (ran (loaded [(1, -9223372036854775808), (2, -9223372036854775808)]) 0x02001400).map (fun t => t.statusWord) =
      some 0x02 := by decide

/-- R126: the inverse of 17 modulo 3120 is 2753, in place (0x03201400). -/
theorem test_modinv : (ran (loaded [(1, 17), (2, 3120)]) 0x03201400).map (fun t => t.getN 1) = some 2753 := by decide

/-- V-INV-20 and R197: DOMAIN is checked before ARITH. -/
theorem test_modinv_domain : (ran (loaded [(1, 6), (0, 77)]) 0x03001400).map
    (fun t => (t.getN 0, t.errcodeWord)) = some (77, 4) := by decide

/-- V-EXP-2: 2790^2753 mod 3233 = 65. -/
theorem test_modexp : (ran (loaded [(4, 2790), (5, 2753), (6, 3233)]) 0x04E04B80).map (fun t => t.getN 7) = some 65 := by
  decide

/-- V-EXP-3: 0^0 = 1. -/
theorem test_modexp_zero : (ran (loaded [(6, 5)]) 0x04E04B80).map (fun t => t.getN 7) = some 1 := by decide

/-- V-DENC-11: 12345 in eight digits at cell 4; the cells read back through the window, most significant first. -/
theorem test_denc : (ran ((loaded [(1, 12345)]).setDptr 4) 0x10001008).map
    (fun t => (t.readDWord 1, t.readDWord 2, t.dptr)) = some (0x01000000, 0x05040302, 12) := by decide

/-- V-DENC-14: DBOUNDS is checked before ENCODING. -/
theorem test_denc_dbounds : (ran ((loaded [(1, 1000)]).setDptr 14) 0x10001003).map
    (fun t => (t.errcodeWord, t.dptr)) = some (6, 14) := by decide

/-- V-DDEC-7: the cells 1, 2, 3, 4, 5, 6 from cell 2 in four digits are 3456. -/
theorem test_ddec : (ran ((State.reset.setCells 0 [1, 2, 3, 4, 5, 6]).setDptr 2) 0x11400004).map
    (fun t => (t.getN 2, t.dptr)) = some (3456, 6) := by decide

/-- V-DDEC-4: a cell above 9 faults ENCODING. -/
theorem test_ddec_encoding : (ran ((loaded [(2, -99)]).setCells 0 [0, 6, 10]) 0x11400003).map
    (fun t => (t.getN 2, t.errcodeWord, t.dptr)) = some (-99, 3, 0) := by decide

/-! ### The register map, and the first step after reset -/

/-- Sequence A1: PARAM reads 0x00100040. -/
theorem test_param : State.reset.readLoc .param = 0x00100040 := by decide

/-- Sequence A3: N2 = −367 as two words, little-endian, and the word the instance does not implement. -/
theorem test_read_words : (List.range 3).map (fun j => (loaded [(2, -367)]).readNWord 2 j) =
    [0xFFFFFE91, 0xFFFFFFFF, 0] := by decide

/-- Sequence A4: a partly loaded register. -/
theorem test_write_word : ((loaded [(2, -367)]).writeNWord 2 0 0x11).getN 2 = -4294967279 := by decide

/-- Sequence A8: malformed digits are stored as written, cell 12 in the low lane. -/
theorem test_write_cells : (State.reset.writeDWord 3 0xFF0A0901).dmem = [(12, 1), (13, 9), (14, 10), (15, 255)] := by
  decide

/-- R56 at its edges. -/
theorem test_map : [0x0FFC, 0x1000, 0x2FFC, 0x3000, 0x4000, 0x7FFC].map locOf =
    [.reserved, .nWord 0 0, .nWord 7 255, .reserved, .dWord 0, .dWord 4095] := by decide

/-- A word placed where the next step runs it is the first command after reset. -/
theorem test_first_command : (match step (State.reset.withFetchWord 32 0x01053800) with
    | .next t => some (t.getN 0, t.getN 1, t.statusWord)
    | _ => none) = some (0, 1, 0x02) := by decide

/-! ### Witnesses: a state and operands that meet the hypotheses of each obligation -/

/-- A command in progress: MODINV n0, n1, n2 with N1 = 17, N2 = 3120, the engine to move. -/
def inProgress : State := (loaded [(1, 17), (2, 3120), (0, 77)]).engineToRun 0x03001400

/-- A pending fault: ARITH. -/
def faulted : State := (loaded [(1, 6), (2, 9), (0, 77)]).takeFault .arith

theorem inv_inProgress : inProgress.Inv := inv_of (by decide)
theorem inv_faulted : faulted.Inv := inv_of (by decide)
theorem inv_reset : State.reset.Inv := inv_of (by decide)

theorem witness_DecodeOfEncode : (Instr.egcd 5 6 7 7 7).wellFormed = true ∧ (Instr.denc 7 1).wellFormed = true ∧
    (Instr.ddec 7 4095).wellFormed = true := by decide

theorem witness_EncodeOfDecode : decode 0x11E00FFF = .ok (.ddec 7 4095) := by rfl

theorem witness_DecoderMatchesOpcodeTable : opcodeRows.all (fun r =>
    [(0x01BB9400 : Word), 0x02001400, 0x03601400, 0x04E04B80, 0x10000FFF, 0x11E00FFF].any
      (fun w => r.matchesWord w && r.extra w)) = true := by decide

/-- The engine on a legal word, on an illegal one and idle, a host access, and a reset. -/
theorem witness_StepRunsDecodedCommand :
    (nextTurn inProgress = .engine ∧ inProgress.busy = true ∧ decode inProgress.cmdreg = .ok (.modinv 0 1 2)) ∧
    (nextTurn (State.reset.engineToRun 0) = .engine ∧ (State.reset.engineToRun 0).busy = true ∧
      decode (State.reset.engineToRun 0).cmdreg = .error .unassignedOpcode) ∧
    (nextTurn State.reset = .engine ∧ State.reset.busy = false ∧ State.reset.agenda = []) ∧
    nextTurn { inProgress with agenda := [.host (.read 0 4)] } = .host (.read 0 4) ∧
    nextTurn { inProgress with agenda := [.reset] } = .reset :=
  ⟨⟨rfl, rfl, rfl⟩, ⟨rfl, rfl, rfl⟩, ⟨rfl, rfl, rfl⟩, rfl, rfl⟩

theorem witness_IssueOrReject_idle : State.reset.busy = false ∧ State.reset.err = false := by decide
theorem witness_IssueOrReject_rejected : inProgress.busy = true ∧ faulted.err = true := by decide

theorem witness_CommitCompletesOrFaults : inProgress.busy = true := rfl

/-- MODINV with N2 = 0, from reset: DOMAIN. -/
theorem witness_FaultLeavesNoPartialResult :
    (State.reset.engineToRun 0x03001400).err = false ∧
      commitCmd (State.reset.engineToRun 0x03001400) = .next ((State.reset.engineToRun 0x03001400).takeFault .domain) ∧
      ((State.reset.engineToRun 0x03001400).takeFault .domain).err = true := ⟨rfl, rfl, rfl⟩

theorem witness_IllegalWordIssuesThenFaults : State.reset.busy = false ∧ State.reset.err = false ∧
    decode 0x00000000 = .error .unassignedOpcode := ⟨rfl, rfl, rfl⟩

/-- Sequence B3: a write to N1 while busy. -/
theorem witness_OperandsStableWhileBusy :
    ({ inProgress with agenda := [.host (.write 0x1400 4 0x99)] } : State).busy = true ∧
      step { inProgress with agenda := [.host (.write 0x1400 4 0x99)] } =
        .next { inProgress with agenda := [], rej := true } ∧
      ({ inProgress with agenda := [], rej := true } : State).busy = true := ⟨rfl, rfl, rfl⟩

theorem witness_EngineIsIdleAfterTheAgenda :
    ∀ t ∈ [Turn.host (.write 0x0000 4 0x02000000), .host (.read 0x7FFC 4), .engine, .reset],
      t.expressible = true := by decide

theorem witness_FrameOfArithmeticCommands : ∃ t, usesDptr (.modexp 7 4 5 6) = false ∧
    exec (.modexp 7 4 5 6) (loaded [(4, 65), (5, 17), (6, 3233)]) = .next t := ⟨_, rfl, rfl⟩

theorem witness_FrameOfDenc : Memory.wf State.reset.dmem ∧ ∃ t, exec (.denc 1 3) (loaded [(1, 65)]) = .next t :=
  ⟨by decide, _, rfl⟩

theorem witness_FrameOfDdec : ∃ t, exec (.ddec 4 3) State.reset = .next t := ⟨_, rfl⟩

/-- Two states that differ in CP and in registers the command does not read. -/
theorem witness_OutcomeDependsOnSourcesOnly :
    ∃ t1 t2, (∀ r ∈ readsN (.denc 1 3), (loaded [(1, 65), (7, 5)]).getN r = ((loaded [(1, 65)]).setCp true).getN r) ∧
      (loaded [(1, 65), (7, 5)]).dptr = ((loaded [(1, 65)]).setCp true).dptr ∧
      (loaded [(1, 65), (7, 5)]).cfg = ((loaded [(1, 65)]).setCp true).cfg ∧
      (∀ k, k < readsCells (.denc 1 3) →
        (loaded [(1, 65), (7, 5)]).getCell k = ((loaded [(1, 65)]).setCp true).getCell k) ∧
      Memory.wf (loaded [(1, 65), (7, 5)]).dmem ∧ Memory.wf ((loaded [(1, 65)]).setCp true).dmem ∧
      ((loaded [(1, 65), (7, 5)]).err = false ∧ ((loaded [(1, 65)]).setCp true).err = false) ∧
      ((loaded [(1, 65), (7, 5)]).errcode = none ∧ ((loaded [(1, 65)]).setCp true).errcode = none) ∧
      exec (.denc 1 3) (loaded [(1, 65), (7, 5)]) = .next t1 ∧
      exec (.denc 1 3) ((loaded [(1, 65)]).setCp true) = .next t2 :=
  ⟨_, _, by decide, rfl, rfl, by decide, by decide, by decide, ⟨rfl, rfl⟩, ⟨rfl, rfl⟩, rfl, rfl⟩

theorem witness_BezoutCoefficientsAreSmall : 0 < (xgcd 4 (-6)).g ∧ 2 ≤ (6 : Nat) / (xgcd 4 (-6)).g.natAbs ∧
    2 ≤ (4 : Nat) / (xgcd 4 (-6)).g.natAbs := by decide

/-- V-EGCD-22: MAXN is the largest gcd that fits. -/
theorem witness_EgcdCompletes :
    ((Nat.gcd ((loaded [(3, 9223372036854775807)]).getN 3).natAbs ((loaded [(3, 9223372036854775807)]).getN 4).natAbs
      : Nat) : Int) ≤ (loaded [(3, 9223372036854775807)]).cfg.maxN ∧ (0 : Reg) ≠ 1 ∧ (0 : Reg) ≠ 2 ∧ (1 : Reg) ≠ 2 := by
  decide

/-- The three pairs of R123 (a). -/
theorem witness_EgcdFaultsRangeExactly : ∀ a b : Bool,
    (loaded [(3, if a then -9223372036854775808 else 0), (4, if b then -9223372036854775808 else 0)]).Inv := by
  intro a b; cases a <;> cases b <;> exact inv_of (by decide)

/-- V-INV-1 and, at the edge, V-INV-5. -/
theorem witness_ModinvCompletes :
    (0 < (loaded [(1, 17), (2, 3120)]).getN 2 ∧
      Nat.gcd ((loaded [(1, 17), (2, 3120)]).getN 1).natAbs ((loaded [(1, 17), (2, 3120)]).getN 2).natAbs = 1) ∧
    (0 < (loaded [(1, 3), (2, 1)]).getN 2 ∧
      Nat.gcd ((loaded [(1, 3), (2, 1)]).getN 1).natAbs ((loaded [(1, 3), (2, 1)]).getN 2).natAbs = 1) := by decide

/-- V-INV-10, V-INV-11 and V-INV-8. -/
theorem witness_ModinvFaults : (loaded [(1, 5)]).getN 2 ≤ 0 ∧ (loaded [(1, 3), (2, -7)]).getN 2 ≤ 0 ∧
    0 < (loaded [(1, 2), (2, 4)]).getN 2 ∧
    Nat.gcd ((loaded [(1, 2), (2, 4)]).getN 1).natAbs ((loaded [(1, 2), (2, 4)]).getN 2).natAbs ≠ 1 := by decide

/-- V-EXP-6: n = 1, e = 0. -/
theorem witness_ModexpCompletes : 0 < (loaded [(4, 5), (6, 1)]).getN 6 ∧ 0 ≤ (loaded [(4, 5), (6, 1)]).getN 5 ∧
    0 ≤ (loaded [(4, 5), (6, 1)]).getN 4 := by decide

/-- V-EXP-17, V-EXP-19, V-EXP-20: one for each operand outside the domain. -/
theorem witness_ModexpFaultsDomain : (loaded [(4, 5), (5, 3)]).getN 6 ≤ 0 ∧
    (loaded [(4, 5), (5, -1), (6, 7)]).getN 5 < 0 ∧ (loaded [(4, -5), (5, 3), (6, 7)]).getN 4 < 0 := by decide

theorem witness_ModexpLaws : 1 ≤ 1 := le_refl 1

/-- The source's toy key (R4). -/
theorem toyKey : KeyInvariant 61 53 3233 17 2753 :=
  ⟨by norm_num, by norm_num, by norm_num, by norm_num, by decide, by norm_num⟩

theorem witness_RsaCommandsInvert : KeyInvariant 61 53 3233 17 2753 ∧ (61 : Nat) ≠ 53 ∧ 3232 < 3233 ∧
    (loaded [(4, 3232), (5, 17), (6, 3233), (0, 2753)]).getN 4 = (3232 : Nat) ∧
    (loaded [(4, 3232), (5, 17), (6, 3233), (0, 2753)]).getN 5 = (17 : Nat) ∧
    (loaded [(4, 3232), (5, 17), (6, 3233), (0, 2753)]).getN 0 = (2753 : Nat) ∧
    (loaded [(4, 3232), (5, 17), (6, 3233), (0, 2753)]).getN 6 = (3233 : Nat) ∧ (7 : Reg) ≠ 0 ∧ (7 : Reg) ≠ 6 :=
  ⟨toyKey, by decide, by decide, by decide, by decide, by decide, by decide, by decide, by decide⟩

/-- The field ends at the last cell, the value is the largest of its width. -/
theorem witness_DencCompletes : Memory.wf ((loaded [(1, 999)]).setDptr 13).dmem ∧
    ((loaded [(1, 999)]).setDptr 13).cfg.Legal ∧
    ((loaded [(1, 999)]).setDptr 13).fieldStart + (3 : BitVec 12).toNat ≤ ((loaded [(1, 999)]).setDptr 13).cfg.dlen ∧
    0 ≤ ((loaded [(1, 999)]).setDptr 13).getN 1 ∧
    ((loaded [(1, 999)]).setDptr 13).getN 1 < 10 ^ (3 : BitVec 12).toNat := by decide

/-- V-DENC-14, V-DENC-4, V-DENC-5. -/
theorem witness_DencFaults :
    ((loaded [(1, 1000)]).setDptr 14).cfg.dlen < ((loaded [(1, 1000)]).setDptr 14).fieldStart + (3 : BitVec 12).toNat ∧
    (loaded [(1, 1000)]).fieldStart + (3 : BitVec 12).toNat ≤ (loaded [(1, 1000)]).cfg.dlen ∧
    10 ^ (3 : BitVec 12).toNat ≤ (loaded [(1, 1000)]).getN 1 ∧ (loaded [(1, -1)]).getN 1 < 0 := by decide

/-- The 19 cells of MAXN, and of MAXN + 1, in an instance with DLEN = 32 (spec/95_test_vectors.md 2.6). -/
def wide (last : Byte) : State :=
  (State.resetOf { xlen := 64, dlen := 32 }).setCells 0 [9, 2, 2, 3, 3, 7, 2, 0, 3, 6, 8, 5, 4, 7, 7, 5, 8, 0, last]

theorem witness_DdecCompletes : (wide 7).cfg.Legal ∧
    (wide 7).fieldStart + (19 : BitVec 12).toNat ≤ (wide 7).cfg.dlen ∧ (wide 7).fieldDecimal (19 : BitVec 12).toNat ∧
    ((wide 7).fieldSum (19 : BitVec 12).toNat : Int) ≤ (wide 7).cfg.maxN := by decide

theorem witness_DdecFaults :
    (State.reset.setDptr 16).cfg.dlen < (State.reset.setDptr 16).fieldStart + (1 : BitVec 12).toNat ∧
    ((State.reset.setCells 0 [0, 6, 10]).fieldStart + (3 : BitVec 12).toNat ≤ State.reset.cfg.dlen ∧
      ¬(State.reset.setCells 0 [0, 6, 10]).fieldDecimal (3 : BitVec 12).toNat) ∧
    ((wide 8).fieldStart + (19 : BitVec 12).toNat ≤ (wide 8).cfg.dlen ∧
      (wide 8).fieldDecimal (19 : BitVec 12).toNat ∧
      (wide 8).cfg.maxN < (wide 8).fieldSum (19 : BitVec 12).toNat) := by decide

/-- (a): a DENC of 65, then DPTR set back. -/
theorem witness_CodecInverse_a : ∃ t, (loaded [(3, 65)]).Inv ∧ (loaded [(3, 65)]).err = false ∧ t.err = false ∧
    (t.setDptr 0).cfg = (loaded [(3, 65)]).cfg ∧ (t.setDptr 0).dptr = (loaded [(3, 65)]).dptr ∧
    Memory.wf (t.setDptr 0).dmem ∧
    (∀ k, k < (3 : BitVec 12).toNat →
      (t.setDptr 0).getCell ((loaded [(3, 65)]).fieldStart + k) = t.getCell ((loaded [(3, 65)]).fieldStart + k)) ∧
    exec (.denc 3 3) (loaded [(3, 65)]) = .next t :=
  ⟨(((loaded [(3, 65)]).setCells 0 [0, 6, 5]).setDptr 3).complete, inv_of (by decide), rfl, rfl, rfl, rfl, by decide,
    fun _ _ => rfl, rfl⟩

/-- (b): a DDEC of the cells 0, 6, 5, then DPTR set back. -/
theorem witness_CodecInverse_b : ∃ t, (State.reset.setCells 0 [0, 6, 5]).Inv ∧
    (State.reset.setCells 0 [0, 6, 5]).err = false ∧ t.err = false ∧
    (t.setDptr 0).cfg = (State.reset.setCells 0 [0, 6, 5]).cfg ∧
    (t.setDptr 0).dptr = (State.reset.setCells 0 [0, 6, 5]).dptr ∧ Memory.wf (t.setDptr 0).dmem ∧
    (∀ k, k < (3 : BitVec 12).toNat → (t.setDptr 0).getCell ((State.reset.setCells 0 [0, 6, 5]).fieldStart + k) =
      t.getCell ((State.reset.setCells 0 [0, 6, 5]).fieldStart + k)) ∧
    exec (.ddec 4 3) (State.reset.setCells 0 [0, 6, 5]) = .next t ∧ (t.setDptr 0).getN 4 = t.getN 4 :=
  ⟨(((State.reset.setCells 0 [0, 6, 5]).setN 4 65).setDptr 3).complete, inv_of (by decide), rfl, rfl, rfl, rfl,
    by decide, fun _ _ => rfl, rfl, rfl⟩

theorem witness_EveryStepKeepsTheInvariant : inProgress.Inv ∧ ∃ t, step inProgress = .next t :=
  ⟨inv_inProgress, _, rfl⟩

theorem witness_ResetHasTheInvariant : (Config.Legal { xlen := 64, dlen := 4 }) ∧
    (Config.Legal { xlen := 8192, dlen := 16384 }) := by decide

theorem witness_CtrlSoftReset : (1 : Word).getLsbD 0 = true ∧ (0xFFFFFFFE : Word).getLsbD 0 = false := by decide

theorem witness_DptrReadAndWrite : inProgress.busy = true ∧ State.reset.busy = false ∧
    State.reset.cfg.dlen < (0x10011 : Word).toNat % 65536 := by decide

/-- Each of the six codes is pending in some state with the invariant. -/
theorem witness_ReadOnlyRegisters_codes (c : FaultCode) :
    (State.reset.takeFault c).Inv ∧ (State.reset.takeFault c).errcode = some c := by
  cases c <;> exact ⟨inv_of (by decide), rfl⟩

theorem witness_ReadOnlyRegisters : faulted.Inv ∧ faulted.errcode = some .arith ∧
    ∃ t, step faulted = .next t := ⟨inv_faulted, rfl, _, rfl⟩

/-- The last implemented word and the first that is not. -/
theorem witness_RegisterWindow : State.reset.Inv ∧ (1 < State.reset.cfg.nWords ∧ State.reset.busy = false) ∧
    State.reset.cfg.nWords ≤ 2 ∧ 255 < 256 := ⟨inv_reset, by decide, by decide, by decide⟩

theorem witness_DigitWindow : State.reset.Inv ∧ (3 < State.reset.cfg.dWords ∧ State.reset.busy = false) ∧
    State.reset.cfg.dWords ≤ 4 ∧ 4095 < 4096 := ⟨inv_reset, by decide, by decide, by decide⟩

/-- Both ranges at both ends. -/
theorem witness_ReservedOffsets : ∀ addr ∈ [0x001C, 0x0FFC, 0x3000, 0x3FFC], addr % 4 = 0 ∧
    ((0x001C ≤ addr ∧ addr ≤ 0x0FFC) ∨ (0x3000 ≤ addr ∧ addr ≤ 0x3FFC)) := by decide

/-- Each case of R60 at an edge, and writes that none of them covers. -/
theorem witness_RejectedWritesExactly : inProgress.cfg.Legal ∧
    inProgress.rejectsWrite 0x0000 ∧ inProgress.rejectsWrite 0x0010 ∧ inProgress.rejectsWrite (nWordAddr 7 1) ∧
    inProgress.rejectsWrite (dWordAddr 3) ∧ faulted.rejectsWrite 0x0000 ∧ ¬faulted.rejectsWrite 0x0010 :=
  ⟨by decide, .inl ⟨rfl, .inl rfl⟩, .inl ⟨rfl, .inr (.inl rfl)⟩, .inl ⟨rfl, .inr (.inr (.inl ⟨7, 1, by decide, rfl⟩))⟩,
    .inl ⟨rfl, .inr (.inr (.inr ⟨3, by decide, rfl⟩))⟩, .inr ⟨rfl, rfl, rfl⟩, by
      rintro (⟨h, -⟩ | ⟨-, -, h⟩)
      · exact absurd h (by decide)
      · exact absurd h (by decide)⟩

theorem witness_ReadsChangeNothing : 0x7FFC % 4 = 0 ∧ 0x7FFC ≤ 0x7FFC := by decide

/-- A COPRIME that sets CP, and a reset that clears it. -/
theorem witness_OnlyCoprimeWritesCp :
    (∃ t, step ((loaded [(1, 17), (2, 3120)]).engineToRun 0x02001400) = .next t ∧
      t.cp ≠ ((loaded [(1, 17), (2, 3120)]).engineToRun 0x02001400).cp) ∧
    (∃ t, step { State.reset.setCp true with agenda := [.reset] } = .next t ∧
      t.cp ≠ ({ State.reset.setCp true with agenda := [.reset] } : State).cp) :=
  ⟨⟨_, rfl, by decide⟩, ⟨_, rfl, by decide⟩⟩

theorem witness_InterruptLine : inProgress.Inv ∧ inProgress.busy = true ∧ ∃ t, engineTurn inProgress = .next t :=
  ⟨inv_inProgress, rfl, _, rfl⟩

theorem witness_FaultsDoNotNest : faulted.Inv ∧ faulted.err = true ∧ ∃ t, step faulted = .next t :=
  ⟨inv_faulted, rfl, _, rfl⟩

theorem witness_LoadAndFetchRegister : State.reset.Inv ∧ State.reset.busy = false ∧
    (State.reset.cfg.minN ≤ -9223372036854775808 ∧ -9223372036854775808 ≤ State.reset.cfg.maxN) ∧
    (State.reset.cfg.minN ≤ 9223372036854775807 ∧ 9223372036854775807 ≤ State.reset.cfg.maxN) :=
  ⟨inv_reset, rfl, by decide, by decide⟩

theorem witness_RunIsIssueThenCommit : State.reset.Inv ∧ State.reset.busy = false ∧ State.reset.err = false :=
  ⟨inv_reset, rfl, rfl⟩

/-- A text that ends at the last cell, an abort there, and the code points 1000 and 2^64 + 65. -/
theorem witness_EncodeMessage : (State.reset.Inv ∧ State.reset.busy = false ∧ State.reset.err = false) ∧
    ((∀ c ∈ [65, 999, 0, 1, 2], c < 1000) ∧ 1 + 3 * [65, 999, 0, 1, 2].length ≤ State.reset.cfg.dlen) ∧
    ((∀ b ∈ [65, 999, 0, 1], b < 1000) ∧ 1000 ≤ 2 ^ 64 + 65 ∧
      1 + 3 * ([65, 999, 0, 1].length + 1) ≤ State.reset.cfg.dlen) ∧
    (1000 ≤ 1000 ∧ State.reset.fieldStart + 3 ≤ State.reset.cfg.dlen) :=
  ⟨⟨inv_reset, rfl, rfl⟩, by decide, by decide, by decide⟩

/-- R170: a code point that no register holds, and whose low 64 bits are 65, aborts with EncodingError. -/
theorem test_encodeChar_huge : (match encodeChar 3 0 (2 ^ 64 + 65) State.reset with
    | .error e t => some (e, t.getCell 2)
    | _ => none) = some (.encodingError, 0) := by decide +kernel

theorem witness_ChunkingProperty : 1 ≤ 4 ∧ ∃ blocks t, chunk 4 0 3 4 0 (fun _ => 9) State.reset = .ok blocks t :=
  ⟨by decide, ok_of (by decide +kernel)⟩

theorem witness_DecodeMessageChecksGrouping : (3 < 4 ∨ (3 - 4) % 3 ≠ 0) ∧ (8 < 1 ∨ (8 - 1) % 3 ≠ 0) := by decide

theorem witness_KeygenGivesValidKeys : (State.reset.Inv ∧ State.reset.busy = false ∧ State.reset.err = false) ∧
    ((2 : Int) ≤ 61 ∧ (2 : Int) ≤ 53 ∧ (1 : Int) < (61 - 1) * (53 - 1) ∧
      (61 - 1) * (53 - 1) ≤ State.reset.cfg.maxN) ∧
    (∀ e ∈ [(15 : Int), 17], 1 ≤ e ∧ e < (61 - 1) * (53 - 1)) ∧
    (1 : Reg) ≠ 2 ∧ (∃ keys t, keygen 0 1 2 0 61 53 [15, 17] none false State.reset = .ok keys t) ∧
    (∃ e ∈ [(15 : Int), 17], Int.gcd e ((61 - 1) * (53 - 1)) = 1) :=
  ⟨⟨inv_reset, rfl, rfl⟩, by decide, by decide, by decide, ok_of (by decide +kernel), by decide⟩

/-- Program P5: block_len = 4 with n = 3233, where 10^block_len > n; the block values are 721 and 537. -/
theorem witness_PipelineRoundTrip : (State.reset.Inv ∧ State.reset.busy = false ∧ State.reset.err = false) ∧
    ({} : Layout).distinct ∧
    KeyInvariant 61 53 3233 17 2753 ∧ (61 : Nat) ≠ 53 ∧ ((3233 : Nat) : Int) ≤ State.reset.cfg.maxN ∧
    ((17 : Nat) : Int) ≤ State.reset.cfg.maxN ∧ 1 ≤ 4 ∧ 4 ≤ 4095 ∧ (∀ c ∈ [72, 105], c < 1000) ∧
    (∀ i : Nat, ((fun i => if i = 0 then (3 : Byte) else 7) i).toNat ≤ 9) ∧
    (blocksOf [72, 105] 4 (fun i => if i = 0 then 3 else 7)).map fieldValue = [721, 537] ∧
    (∀ b ∈ blocksOf [72, 105] 4 (fun i => if i = 0 then 3 else 7), fieldValue b < 3233) ∧
    0 + numBlocks (3 * [72, 105].length) 4 * 4 ≤ State.reset.cfg.dlen ∧
    8 + numBlocks (3 * [72, 105].length) 4 * 4 ≤ State.reset.cfg.dlen :=
  ⟨⟨inv_reset, rfl, rfl⟩, by decide, toyKey, by decide, by decide, by decide, by decide, by decide, by decide,
    fun i => by by_cases h : i = 0 <;> simp [h], by decide, by decide, by decide, by decide⟩

/-- A text of 18 digits, longer than DMEM's 16 cells, in pieces at the last cells that hold one. -/
theorem witness_PiecewiseRoundTrip : (State.reset.Inv ∧ State.reset.busy = false ∧ State.reset.err = false) ∧
    ({} : Layout).distinct ∧ State.reset.cfg.dlen < 3 * [72, 105, 33, 65, 66, 67].length ∧
    (∀ c ∈ [72, 105, 33, 65, 66, 67], c < 1000) ∧ (∀ i : Nat, ((fun _ => (9 : Byte)) i).toNat ≤ 9) ∧
    (∀ b ∈ blocksOf [72, 105, 33, 65, 66, 67] 3 (fun _ => 9), fieldValue b < 3233) ∧
    13 + max 3 3 ≤ State.reset.cfg.dlen :=
  ⟨⟨inv_reset, rfl, rfl⟩, by decide, by decide, by decide, fun _ => Nat.le_refl 9, by decide, by decide⟩

/-- One past each end of each range. -/
theorem witness_ProceduresAbortOutOfRange :
    -9223372036854775809 < State.reset.cfg.minN ∧ State.reset.cfg.maxN < 9223372036854775808 ∧ 65535 < 65536 ∧
      4095 < 4096 := by decide

end Sys2Proof.Tests
end

section
/-! The model's choice (notes/assumptions/12.md, 13.md): the host's checks of its operands. Each check is a procedure's
first action, so its abort is the procedure's outcome, in the state the procedure started in. -/

namespace Sys2Proof.Machine

/-- An abort of a procedure's first part is the abort of the procedure. -/
theorem bind_error {α β : Type} {x : HostM α} {s t : State} {e : HostAbort} (f : α → HostM β)
    (h : x s = .error e t) : (x >>= f) s = .error e t := by
  simp only [bind, EStateM.bind, h]

/-- A procedure that begins by reading the state goes on with that state, unchanged. -/
theorem get_bind {α : Type} (f : State → HostM α) (s : State) : (get >>= f) s = f s s := rfl

/-- R144: a register holds MINN..MAXN only. -/
theorem loadN_unloadable {s : State} (i : Reg) {v : Int} (h : v < s.cfg.minN ∨ s.cfg.maxN < v) :
    loadN i v s = .error .unloadable s := by
  rw [loadN, get_bind, if_pos h]
  rfl

/-- R31: DPTR holds 0..65535 only. -/
theorem pointTo_pointerOutOfRange {p : Nat} (s : State) (h : 65535 < p) :
    pointTo p s = .error .pointerOutOfRange s := by
  rw [pointTo, if_pos h]
  rfl

/-- R173: WIDTH holds 1..4095 only. -/
theorem checkBlockLen_blockLenOutOfRange {blockLen : Nat} (s : State) (h : blockLen = 0 ∨ 4095 < blockLen) :
    checkBlockLen blockLen s = .error .blockLenOutOfRange s := by
  have hout : blockLen < 1 ∨ 4095 < blockLen := by omega
  rw [checkBlockLen, if_pos hout]
  rfl

/-- Settles O59: each procedure's first action is the check of its operand, which aborts in the state it was given. -/
theorem proceduresAbortOutOfRange : Obligations.ProceduresAbortOutOfRange := by
  unfold Obligations.ProceduresAbortOutOfRange
  intro s
  refine ⟨fun i v h => loadN_unloadable i h, fun p h => pointTo_pointerOutOfRange s h, ?_⟩
  intro r polls total blockLen p0 pads values h
  have hcheck := checkBlockLen_blockLenOutOfRange s h
  exact ⟨bind_error _ hcheck, bind_error _ hcheck⟩

end Sys2Proof.Machine
end

section
/-! The gcd of R122, and the size of its Bézout coefficients (R123 (b)). Each column of the recurrence, s or t, is
bounded on its own: its signs alternate, so the magnitudes weighted by the remainders keep their sum. -/

namespace Sys2Proof.Machine

/-- What every round of R122 keeps of one column (u0, u1) of coefficients, where `C` is the magnitude of the operand
that the column does not multiply. -/
structure CofactorBound (C r0 r1 : Nat) (u0 u1 : Int) : Prop where
  /-- The signs of the two coefficients alternate. -/
  alternate : u0 * u1 ≤ 0
  /-- The magnitudes, each weighted by the other's remainder, add up to the operand. -/
  weight : u1.natAbs * r0 + u0.natAbs * r1 = C
  /-- The remainders fall from the first round on; before it, the coefficient is 0 or 1. -/
  descend : r1 < r0 ∨ u1.natAbs ≤ 1
  /-- At the end the coefficient is trivial, or at most half of the one after it. -/
  last : r1 = 0 → u0.natAbs ≤ 1 ∨ 2 * u0.natAbs ≤ u1.natAbs

theorem natAbs_sub_mul_of_alternate {u0 u1 : Int} (h : u0 * u1 ≤ 0) (q : Nat) :
    (u0 - q * u1).natAbs = u0.natAbs + q * u1.natAbs := by
  have hq : (0 : Int) ≤ q := Int.natCast_nonneg q
  have habs : (-(q * u1 : Int)).natAbs = q * u1.natAbs := by rw [Int.natAbs_neg, Int.natAbs_mul, Int.natAbs_natCast]
  rw [sub_eq_add_neg, ← habs]
  rcases mul_nonpos_iff.1 h with ⟨h0, h1⟩ | ⟨h0, h1⟩
  · exact Int.natAbs_add_of_nonneg h0 (neg_nonneg.2 (mul_nonpos_of_nonneg_of_nonpos hq h1))
  · exact Int.natAbs_add_of_nonpos h0 (neg_nonpos.2 (mul_nonneg hq h1))

/-- A round of R122 keeps the bound. -/
theorem CofactorBound.round {C r0 r1 : Nat} {u0 u1 : Int} (h : CofactorBound C r0 r1 u0 u1) (hr : r1 ≠ 0) :
    CofactorBound C r1 (r0 % r1) u1 (u0 - ((r0 / r1 : Nat) : Int) * u1) := by
  have hdiv : r1 * (r0 / r1) + r0 % r1 = r0 := Nat.div_add_mod r0 r1
  have habs := natAbs_sub_mul_of_alternate h.alternate (r0 / r1)
  refine ⟨?alternate, ?weight, .inl (Nat.mod_lt _ (Nat.pos_of_ne_zero hr)), fun hlast => ?last⟩
  case alternate =>
    have hsq : 0 ≤ ((r0 / r1 : Nat) : Int) * (u1 * u1) := mul_nonneg (Int.natCast_nonneg _) (mul_self_nonneg u1)
    linarith [h.alternate, mul_sub u1 u0 (((r0 / r1 : Nat) : Int) * u1), mul_comm u1 u0,
      mul_left_comm u1 ((r0 / r1 : Nat) : Int) u1]
  case weight =>
    calc (u0 - ((r0 / r1 : Nat) : Int) * u1).natAbs * r1 + u1.natAbs * (r0 % r1)
        = u1.natAbs * (r1 * (r0 / r1) + r0 % r1) + u0.natAbs * r1 := by rw [habs]; ring
      _ = C := by rw [hdiv, h.weight]
  case last =>
    rcases h.descend with hlt | hone
    · have hq : 2 ≤ r0 / r1 := by
        by_contra hq
        have : r1 * (r0 / r1) ≤ r1 * 1 := Nat.mul_le_mul_left _ (by omega)
        omega
      right
      rw [habs]
      exact (Nat.mul_le_mul_right _ hq).trans (Nat.le_add_left _ _)
    · exact .inl hone

/-- The bound at the end of the recurrence, where `r0` is the gcd. -/
theorem CofactorBound.end_le {C r0 : Nat} {u0 u1 : Int} (h : CofactorBound C r0 0 u0 u1) :
    u0.natAbs ≤ 1 ∨ (0 < r0 ∧ 2 * r0 * u0.natAbs ≤ C) := by
  rcases h.last rfl with h1 | h2
  · exact .inl h1
  · rcases h.descend with hpos | hone
    · refine .inr ⟨hpos, ?_⟩
      calc 2 * r0 * u0.natAbs = 2 * u0.natAbs * r0 := by ring
        _ ≤ u1.natAbs * r0 := Nat.mul_le_mul_right _ h2
        _ = C := by simpa using h.weight
    · exact .inl (by omega)

/-- The bound on both columns, at the end of the recurrence on the magnitudes `A`, `B`. -/
theorem euclidLoop_cofactorBound (A B : Nat) :
    CofactorBound B (euclidLoop (B + 1) (euclidStart A B)).r0 0 (euclidLoop (B + 1) (euclidStart A B)).s0
        (euclidLoop (B + 1) (euclidStart A B)).s1 ∧
      CofactorBound A (euclidLoop (B + 1) (euclidStart A B)).r0 0 (euclidLoop (B + 1) (euclidStart A B)).t0
        (euclidLoop (B + 1) (euclidStart A B)).t1 := by
  have hend : (euclidLoop (B + 1) (euclidStart A B)).r1 = 0 := euclidLoop_done _ _ (Nat.lt_succ_self B)
  rw [← hend]
  refine euclidLoop_induct (fun e => CofactorBound B e.r0 e.r1 e.s0 e.s1 ∧ CofactorBound A e.r0 e.r1 e.t0 e.t1)
    (fun e he h => ⟨h.1.round he, h.2.round he⟩) _ _ ⟨?_, ?_⟩
  · constructor <;> simp [euclidStart]
  · constructor <;> simp [euclidStart]

theorem natAbs_sgn_mul (a v : Int) : (sgn a * v).natAbs = v.natAbs := by
  unfold sgn
  split <;> simp

theorem xgcd_g_nonneg (a b : Int) : 0 ≤ (xgcd a b).g := Int.natCast_nonneg _

/-- R123 (b), the first coefficient. -/
theorem xgcd_x_le (a b : Int) :
    (xgcd a b).x.natAbs ≤ 1 ∨
      (0 < (xgcd a b).g.natAbs ∧ 2 * (xgcd a b).g.natAbs * (xgcd a b).x.natAbs ≤ b.natAbs) := by
  simpa only [xgcd, natAbs_sgn_mul, Int.natAbs_natCast] using (euclidLoop_cofactorBound a.natAbs b.natAbs).1.end_le

/-- R123 (b), the second coefficient. -/
theorem xgcd_y_le (a b : Int) :
    (xgcd a b).y.natAbs ≤ 1 ∨
      (0 < (xgcd a b).g.natAbs ∧ 2 * (xgcd a b).g.natAbs * (xgcd a b).y.natAbs ≤ a.natAbs) := by
  simpa only [xgcd, natAbs_sgn_mul, Int.natAbs_natCast] using (euclidLoop_cofactorBound a.natAbs b.natAbs).2.end_le

/-- R120: a round keeps the gcd of the remainders, so the last remainder is the gcd of the magnitudes. -/
theorem xgcd_g_eq (a b : Int) : (xgcd a b).g = (Nat.gcd a.natAbs b.natAbs : Nat) := by
  have hround : ∀ e : Euclid, e.r1 ≠ 0 → Nat.gcd e.r0 e.r1 = Nat.gcd a.natAbs b.natAbs →
      Nat.gcd (euclidRound e).r0 (euclidRound e).r1 = Nat.gcd a.natAbs b.natAbs := fun e _ he => by
    rw [← he, euclidRound, Nat.gcd_comm e.r1, ← Nat.gcd_rec, Nat.gcd_comm]
  have hend := euclidLoop_induct _ hround (b.natAbs + 1) (euclidStart a.natAbs b.natAbs) rfl
  have hlast : (euclidLoop (b.natAbs + 1) (euclidStart a.natAbs b.natAbs)).r1 = 0 :=
    euclidLoop_done _ _ (Nat.lt_succ_self _)
  rw [hlast, Nat.gcd_zero_right] at hend
  exact congrArg Int.ofNat hend

end Sys2Proof.Machine
end

section
/-! What a command does at its commit, said once: which fault it takes, and what it assigns when it takes none. -/

namespace Sys2Proof.Machine

/-- The fault a command takes in `s`, the first that applies in the order of R197; `none` where it completes. -/
def faultOf (s : State) : Instr → Option FaultCode
  | .egcd _ _ _ ra rb => if s.cfg.maxN < (xgcd (s.getN ra) (s.getN rb)).g then some .range else none
  | .coprime _ _ => none
  | .modinv _ ra rb =>
    if s.getN rb ≤ 0 then some .domain
    else if (xgcd (s.getN ra) (s.getN rb)).g ≠ 1 then some .arith
    else none
  | .modexp _ ra rb rc => if s.getN rc ≤ 0 ∨ s.getN rb < 0 ∨ s.getN ra < 0 then some .domain else none
  | .denc ra width =>
    if s.fieldOutside width.toNat then some .dbounds
    else if s.getN ra < 0 ∨ 10 ^ width.toNat ≤ (s.getN ra).toNat then some .encoding
    else none
  | .ddec _ width =>
    if s.fieldOutside width.toNat then some .dbounds
    else if allDigits (s.field width.toNat) = false then some .encoding
    else if s.cfg.maxN < fieldValue (s.field width.toNat) then some .range
    else none

/-- The assignments of a command that completes, before STATUS changes (R102). -/
def assigned (s : State) : Instr → State
  | .egcd rd rx ry ra rb =>
    ((s.setN rd (xgcd (s.getN ra) (s.getN rb)).g).setN rx (xgcd (s.getN ra) (s.getN rb)).x).setN ry
      (xgcd (s.getN ra) (s.getN rb)).y
  | .coprime ra rb => s.setCp (decide ((xgcd (s.getN ra) (s.getN rb)).g = 1))
  | .modinv rd ra rb => s.setN rd ((xgcd (s.getN ra) (s.getN rb)).x % s.getN rb)
  | .modexp rd ra rb rc => s.setN rd (modexp (s.getN ra).toNat (s.getN rb).toNat (s.getN rc).toNat)
  | .denc ra width =>
    (s.setCells s.fieldStart (digits (s.getN ra).toNat width.toNat)).setDptr (s.fieldStart + width.toNat)
  | .ddec rd width => (s.setN rd (fieldValue (s.field width.toNat))).setDptr (s.fieldStart + width.toNat)

@[simp] theorem busy_assigned (s : State) (i : Instr) : (assigned s i).busy = s.busy := by cases i <;> rfl
@[simp] theorem err_assigned (s : State) (i : Instr) : (assigned s i).err = s.err := by cases i <;> rfl
@[simp] theorem errcode_assigned (s : State) (i : Instr) : (assigned s i).errcode = s.errcode := by cases i <;> rfl

/-- What a command does: it takes the fault of `faultOf`, or completes with the assignments of `assigned`. -/
theorem exec_eq (i : Instr) (s : State) :
    exec i s = (faultOf s i).elim (commit (assigned s i)) (fun c => raise c s) := by
  cases i with
  | egcd rd rx ry ra rb => simp only [exec, execEgcd, faultOf]; split_ifs <;> rfl
  | coprime ra rb => rfl
  | modinv rd ra rb => simp only [exec, execModinv, faultOf]; split_ifs <;> rfl
  | modexp rd ra rb rc => simp only [exec, execModexp, faultOf]; split_ifs <;> rfl
  | denc ra width => simp only [exec, execDenc, faultOf]; split_ifs <;> rfl
  | ddec rd width => simp only [exec, execDdec, faultOf]; split_ifs <;> rfl

theorem exec_of_fault {i : Instr} {s : State} {c : FaultCode} (h : faultOf s i = some c) :
    exec i s = .next (s.takeFault c) := by
  rw [exec_eq, h]
  rfl

theorem exec_of_noFault {i : Instr} {s : State} (h : faultOf s i = none) :
    exec i s = .next (assigned s i).complete := by
  rw [exec_eq, h]
  rfl

/-- The two ways a command that answers `t` can have ended. -/
theorem exec_outcome {i : Instr} {s t : State} (h : exec i s = .next t) :
    (∃ c, faultOf s i = some c ∧ t = s.takeFault c) ∨ (faultOf s i = none ∧ t = (assigned s i).complete) := by
  cases hf : faultOf s i with
  | some c => exact .inl ⟨c, rfl, by simpa using h.symm.trans (exec_of_fault hf)⟩
  | none => exact .inr ⟨rfl, by simpa using h.symm.trans (exec_of_noFault hf)⟩

end Sys2Proof.Machine
end

section
/-! What a host write can do, said once, and the host's accesses at the offsets of R56. -/

namespace Sys2Proof.Machine

/-! R56: the offsets of the control registers that the statements name. -/

theorem portLoc_status : portLoc 0x0004 4 = .ok .status := rfl
theorem portLoc_errcode : portLoc 0x0008 4 = .ok .errcode := rfl
theorem portLoc_inten : portLoc 0x000C 4 = .ok .inten := rfl
theorem portLoc_dptr : portLoc 0x0010 4 = .ok .dptr := rfl
theorem portLoc_ctrl : portLoc 0x0014 4 = .ok .ctrl := rfl
theorem portLoc_param : portLoc 0x0018 4 = .ok .param := rfl

theorem hostTurn_write_ok {addr : Nat} {loc : Loc} (s : State) (v : Word) (h : portLoc addr 4 = .ok loc) :
    hostTurn (.write addr 4 v) s = .next (s.writeLoc v loc) := by
  simp only [hostTurn, h]

theorem hostTurn_read_ok {addr : Nat} {loc : Loc} (s : State) (h : portLoc addr 4 = .ok loc) :
    hostTurn (.read addr 4) s = .next { s with hostData := s.readLoc loc } := by
  simp only [hostTurn, h]

namespace State

/-- R60 (a): a write that is rejected while BUSY = 1 is rejected or performed. -/
theorem unlessBusy_elim {P : State → Prop} {s s' : State} (rejected : P s.reject)
    (performed : s.busy = false → P s') : P (s.unlessBusy s') := by
  unfold unlessBusy
  split
  · exact rejected
  · next h => exact performed (by simpa using h)

/-- Everything a host write can do: a property of all these states is one of the state after it. -/
theorem writeLoc_elim {P : State → Prop} {s : State} {v : Word} (ignored : P s) (rejected : P s.reject)
    (issued : s.busy = false → s.err = false → P (s.issue v)) (status : P (s.writeStatus v))
    (inten : P (s.writeInten v)) (pointer : P (s.setDptr (bits v 15 0))) (reset : P s.resetBlock)
    (register : ∀ i j, j < s.cfg.nWords → P (s.writeNWord i j v))
    (cells : ∀ w, w < s.cfg.dWords → P (s.writeDWord w v)) (loc : Loc) : P (s.writeLoc v loc) := by
  cases loc with
  | cmd =>
    simp only [writeLoc]
    split
    · exact rejected
    · next h =>
      obtain ⟨hb, he⟩ : s.busy = false ∧ s.err = false := by simpa using h
      exact issued hb he
  | status => exact status
  | inten => exact inten
  | dptr => exact unlessBusy_elim rejected fun _ => pointer
  | ctrl =>
    simp only [writeLoc]
    split
    · exact reset
    · exact ignored
  | nWord i j =>
    simp only [writeLoc]
    split
    · next hj => exact unlessBusy_elim rejected fun _ => register i j hj
    · exact ignored
  | dWord w =>
    simp only [writeLoc]
    split
    · next hw => exact unlessBusy_elim rejected fun _ => cells w hw
    · exact ignored
  | errcode => exact ignored
  | param => exact ignored
  | reserved => exact ignored

end State

/-- R102: what a commit does not assign. -/
theorem exec_untouched {i : Instr} {s t : State} (h : exec i s = .next t) : Untouched s t := by
  rcases exec_cases i s with ⟨c, hx⟩ | ⟨n, dmem, dptr, cp, hx⟩ <;> rw [hx] at h <;> cases h <;>
    exact ⟨rfl, rfl, rfl, rfl, rfl, rfl, rfl⟩

/-- R102: a command completes or faults. -/
theorem exec_commitStatus {i : Instr} {s t : State} (h : exec i s = .next t) : CommitStatus s t := by
  rcases exec_cases i s with ⟨c, hx⟩ | ⟨n, dmem, dptr, cp, hx⟩ <;> rw [hx] at h <;> cases h
  · exact ⟨rfl, .inr ⟨rfl, rfl, Option.some_ne_none c⟩⟩
  · exact ⟨rfl, .inl ⟨rfl, rfl, rfl⟩⟩

/-- R102: so does the commit of any word in progress. -/
theorem engineTurn_commitStatus {s t : State} (hb : s.busy = true) (h : engineTurn s = .next t) :
    CommitStatus s t ∧ Untouched s t := by
  rcases engineTurn_cases h with ⟨hidle, -⟩ | ⟨-, -, rfl⟩ | ⟨-, i, -, hx⟩
  · rw [hb] at hidle
    cases hidle
  · exact ⟨⟨rfl, .inr ⟨rfl, rfl, Option.some_ne_none _⟩⟩, rfl, rfl, rfl, rfl, rfl, rfl, rfl⟩
  · exact ⟨exec_commitStatus hx, exec_untouched hx⟩

end Sys2Proof.Machine
end

section
/-! R20: every step keeps the invariant. First the operations, then the commands, then the turns. -/

namespace Sys2Proof.Machine

/-- R8: XLEN is at least 64, so a register holds the values −2 to 1. -/
theorem two_le_of_legal {c : Config} (h : c.Legal) : 2 ≤ 2 ^ (c.xlen - 1) := by
  obtain ⟨⟨-, hx, -⟩, -⟩ := h
  calc 2 = 2 ^ 1 := rfl
    _ ≤ 2 ^ (c.xlen - 1) := Nat.pow_le_pow_right (by norm_num) (by omega)

/-- A value that is trivial or at most half of a register's value fits a register. -/
theorem inRange_of_half {c : Config} (h : c.Legal) {b v : Int} (hb : c.minN ≤ b ∧ b ≤ c.maxN)
    (hv : v.natAbs ≤ 1 ∨ 2 * v.natAbs ≤ b.natAbs) : c.minN ≤ v ∧ v ≤ c.maxN := by
  have h2 := two_le_of_legal h
  unfold Config.minN Config.maxN at *
  omega

theorem minN_nonpos (c : Config) : c.minN ≤ 0 := neg_nonpos.2 (Int.natCast_nonneg _)

namespace State.Inv

variable {s : State}

/-! The operations -/

theorem setN (h : s.Inv) (r : Reg) {v : Int} (hv : s.cfg.minN ≤ v ∧ v ≤ s.cfg.maxN) : (s.setN r v).Inv :=
  { h with
    inRange := fun r' => by
      rw [State.getN_setN]
      split
      · exact hv
      · exact h.inRange r' }

theorem setN_of_nonneg (h : s.Inv) (r : Reg) {v : Int} (h0 : 0 ≤ v) (hv : v ≤ s.cfg.maxN) : (s.setN r v).Inv :=
  h.setN r ⟨(minN_nonpos s.cfg).trans h0, hv⟩

theorem setCells (h : s.Inv) {p : Nat} {vs : List Byte} (hp : p + vs.length ≤ s.cfg.dlen) : (s.setCells p vs).Inv :=
  { h with
    cellsWf := Memory.wf_writeList h.cellsWf p vs
    cellsInside := fun c hc => (Memory.mem_writeList hc).elim (h.cellsInside c) fun hin => hin.2.trans_le hp }

theorem setDptr (h : s.Inv) (p : Nat) : (s.setDptr p).Inv := { h with }

theorem setCp (h : s.Inv) (b : Bool) : (s.setCp b).Inv := { h with }

theorem reject (h : s.Inv) : s.reject.Inv := { h with }

theorem writeInten (h : s.Inv) (v : Word) : (s.writeInten v).Inv := { h with }

theorem popTurn (h : s.Inv) : s.popTurn.Inv := { h with }

theorem setHostData (h : s.Inv) (d : Word) : State.Inv { s with hostData := d } := { h with }

theorem issue (h : s.Inv) (he : s.err = false) (v : Word) : (s.issue v).Inv :=
  { h with
    busyAlone := fun _ => ⟨rfl, he⟩
    doneNotErr := fun hd => by cases hd }

/-- R102: a command in progress has ERR = 0 (R20), so DONE and ERR stay exclusive when it completes. -/
theorem complete (h : s.Inv) (hb : s.busy = true) : s.complete.Inv :=
  { h with
    busyAlone := fun hb' => by cases hb'
    doneNotErr := fun _ => (h.busyAlone hb).2 }

/-- R198: a command in progress has DONE = 0 (R20), so DONE and ERR stay exclusive when it faults. -/
theorem takeFault (h : s.Inv) (hb : s.busy = true) (c : FaultCode) : (s.takeFault c).Inv :=
  { h with
    busyAlone := fun hb' => by cases hb'
    errHasCode := by simp
    doneNotErr := fun hd => by
      rw [takeFault_done, (h.busyAlone hb).1] at hd
      cases hd }

theorem ofReset {cfg : Config} (hc : cfg.Legal) : (resetOf cfg).Inv where
  legal := hc
  inRange r := by
    have h0 : (resetOf cfg).getN r = 0 := by simp [getN, resetOf]
    have h2 := two_le_of_legal hc
    rw [h0]
    refine ⟨minN_nonpos cfg, ?_⟩
    show 0 ≤ cfg.maxN
    unfold Config.maxN
    omega
  cellsWf := Memory.wf_nil
  cellsInside c hc' := by cases hc'
  busyAlone hb := by cases hb
  errHasCode := by simp [resetOf]
  doneNotErr hd := by cases hd

theorem resetBlock (h : s.Inv) : s.resetBlock.Inv := { ofReset h.legal with }

/-- R28, R200: clearing status bits, ERRCODE with ERR. -/
theorem writeStatus (h : s.Inv) (v : Word) : (s.writeStatus v).Inv := by
  rw [writeStatus_eq]
  exact { h with
    busyAlone := fun hb => by simp [h.busyAlone hb]
    errHasCode := by
      cases hv : v.getLsbD 2
      · simpa [hv] using h.errHasCode
      · simp
    doneNotErr := fun hd => by
      obtain ⟨hd', -⟩ : s.done = true ∧ _ := by simpa using hd
      simp [h.doneNotErr hd'] }

/-- R57: the new word of the register is one of XLEN bits, and every such word is a value of the register. -/
theorem writeNWord (h : s.Inv) (i : Reg) {j : Nat} (hj : j < s.cfg.nWords) (v : Word) : (s.writeNWord i j v).Inv := by
  obtain ⟨⟨h32, h64, -⟩, -⟩ := h.legal
  have hx : 32 * s.cfg.nWords = s.cfg.xlen := by unfold Config.nWords; omega
  have hu := putWord_lt v (hx ▸ sext_lt s.cfg.xlen (s.getN i)) hj
  rw [hx] at hu
  obtain ⟨hlo, hhi⟩ := signed_range (by omega) hu
  exact h.setN i ⟨hlo, Int.le_sub_one_of_lt hhi⟩

/-- R58: the four cells of an implemented word exist. -/
theorem writeDWord (h : s.Inv) {w : Nat} (hw : w < s.cfg.dWords) (v : Word) : (s.writeDWord w v).Inv := by
  obtain ⟨-, h4, -, -⟩ := h.legal
  refine h.setCells ?_
  simp only [List.length_cons, List.length_nil]
  unfold Config.dWords at hw
  omega

/-! The commands -/

/-- R123 (b): the coefficients of two registers' values fit registers. -/
theorem xgcd_x_inRange (h : s.Inv) (ra rb : Reg) :
    s.cfg.minN ≤ (xgcd (s.getN ra) (s.getN rb)).x ∧ (xgcd (s.getN ra) (s.getN rb)).x ≤ s.cfg.maxN :=
  inRange_of_half h.legal (h.inRange rb) ((xgcd_x_le _ _).imp_right fun ⟨hpos, hle⟩ =>
    (Nat.mul_le_mul_right _ (Nat.le_mul_of_pos_right 2 hpos)).trans hle)

theorem xgcd_y_inRange (h : s.Inv) (ra rb : Reg) :
    s.cfg.minN ≤ (xgcd (s.getN ra) (s.getN rb)).y ∧ (xgcd (s.getN ra) (s.getN rb)).y ≤ s.cfg.maxN :=
  inRange_of_half h.legal (h.inRange ra) ((xgcd_y_le _ _).imp_right fun ⟨hpos, hle⟩ =>
    (Nat.mul_le_mul_right _ (Nat.le_mul_of_pos_right 2 hpos)).trans hle)

/-- What a command that takes no fault assigns keeps the invariant. -/
theorem of_assigned (h : s.Inv) {i : Instr} (hf : faultOf s i = none) : (assigned s i).Inv := by
  cases i with
  | egcd rd rx ry ra rb =>
    have hg : (xgcd (s.getN ra) (s.getN rb)).g ≤ s.cfg.maxN := by simpa [faultOf] using hf
    exact ((h.setN_of_nonneg rd (xgcd_g_nonneg _ _) hg).setN rx (h.xgcd_x_inRange ra rb)).setN ry
      (h.xgcd_y_inRange ra rb)
  | coprime ra rb => exact h.setCp _
  | modinv rd ra rb =>
    have hb : 0 < s.getN rb := by
      by_contra hb
      simp [faultOf, not_lt.1 hb] at hf
    exact h.setN_of_nonneg rd (Int.emod_nonneg _ hb.ne') ((Int.emod_lt_of_pos _ hb).le.trans (h.inRange rb).2)
  | modexp rd ra rb rc =>
    have hn : 0 < s.getN rc := by
      by_contra hn
      simp [faultOf, not_lt.1 hn] at hf
    have hlt : modexp (s.getN ra).toNat (s.getN rb).toNat (s.getN rc).toNat < (s.getN rc).toNat := by
      rw [modexp_eq]
      exact Nat.mod_lt _ (by omega)
    exact h.setN_of_nonneg rd (Int.natCast_nonneg _) (le_trans (by omega) (h.inRange rc).2)
  | denc ra width =>
    have hin : s.fieldStart + width.toNat ≤ s.cfg.dlen := by
      by_contra hin
      simp [faultOf, (s.fieldOutside_iff _).2 (not_le.1 hin)] at hf
    exact (h.setCells ((length_digits _ _).symm ▸ hin)).setDptr _
  | ddec rd width =>
    have hmax : (fieldValue (s.field width.toNat) : Int) ≤ s.cfg.maxN := by
      by_contra hmax
      simp [faultOf, not_le.1 hmax] at hf
      split_ifs at hf
    exact (h.setN_of_nonneg rd (Int.natCast_nonneg _) hmax).setDptr _

/-- The commit of a command in progress. -/
theorem of_exec (h : s.Inv) (hb : s.busy = true) {i : Instr} {t : State} (hx : exec i s = .next t) : t.Inv := by
  rcases exec_outcome hx with ⟨c, -, rfl⟩ | ⟨hf, rfl⟩
  · exact h.takeFault hb c
  · exact (h.of_assigned hf).complete ((busy_assigned s i).trans hb)

/-! The turns -/

theorem of_hostTurn (h : s.Inv) {a : HostAccess} {t : State} (ht : hostTurn a s = .next t) : t.Inv := by
  rcases hostTurn_cases ht with ⟨_, _, loc, _, _, rfl⟩ | ⟨_, _, v, loc, _, _, rfl⟩
  · exact h.setHostData _
  · exact writeLoc_elim h h.reject (fun _ he => h.issue he v) (h.writeStatus v) (h.writeInten v) (h.setDptr _)
      h.resetBlock (fun i _ hj => h.writeNWord i hj v) (fun _ hw => h.writeDWord hw v) loc

theorem of_engineTurn (h : s.Inv) {t : State} (ht : engineTurn s = .next t) : t.Inv := by
  rcases engineTurn_cases ht with ⟨-, rfl⟩ | ⟨hb, -, rfl⟩ | ⟨hb, i, -, hx⟩
  · exact h
  · exact h.takeFault hb _
  · exact h.of_exec hb hx

theorem of_step (h : s.Inv) {t : State} (ht : step s = .next t) : t.Inv := by
  rcases step_cases ht with ⟨a, -, ha⟩ | ⟨-, he⟩ | ⟨-, rfl⟩
  · exact h.popTurn.of_hostTurn ha
  · exact h.popTurn.of_engineTurn he
  · exact h.popTurn.resetBlock

end State.Inv

/-- Settles O33: whatever turn comes next, its operation keeps the invariant; EGCD by the bound of R123 (b). -/
theorem everyStepKeepsTheInvariant : Obligations.EveryStepKeepsTheInvariant := by
  unfold Obligations.EveryStepKeepsTheInvariant
  exact fun s t h ht => h.of_step ht

/-- Settles O34: in every reset state all registers are 0, DMEM is empty and STATUS is 0. -/
theorem resetHasTheInvariant : Obligations.ResetHasTheInvariant := by
  unfold Obligations.ResetHasTheInvariant
  exact ⟨State.Inv.ofReset (by decide), fun _ hc => State.Inv.ofReset hc⟩

end Sys2Proof.Machine
end

section
/-! Frames and sources: what a command leaves unchanged, and what its outcome depends on (R22, R25, R31, R102). -/

namespace Sys2Proof.Machine

/-- R22: a command assigns no register but its destinations. -/
theorem getN_assigned_of_not_mem {s : State} {i : Instr} {r : Reg} (h : r ∉ writesN i) :
    (assigned s i).getN r = s.getN r := by
  cases i with
  | egcd rd rx ry ra rb =>
    obtain ⟨hd, hx, hy⟩ : r ≠ rd ∧ r ≠ rx ∧ r ≠ ry := by simpa [writesN] using h
    simp only [assigned, State.getN_setN, if_neg hd.symm, if_neg hx.symm, if_neg hy.symm]
  | coprime ra rb => rfl
  | modinv rd ra rb => exact State.getN_setN_other _ _ (Ne.symm (by simpa [writesN] using h))
  | modexp rd ra rb rc => exact State.getN_setN_other _ _ (Ne.symm (by simpa [writesN] using h))
  | denc ra width => rfl
  | ddec rd width =>
    rw [assigned, State.getN_setDptr]
    exact State.getN_setN_other _ _ (Ne.symm (by simpa [writesN] using h))

/-- R53: a command that stores no cell assigns none. -/
theorem dmem_assigned {s : State} {i : Instr} (h : storesCells i = 0) : (assigned s i).dmem = s.dmem := by
  cases i with
  | denc ra width => simp [assigned, digits, show width.toNat = 0 from h, Memory.writeList]
  | _ => rfl

/-- R31: a command that does not use DPTR does not assign it. -/
theorem dptr_assigned {s : State} {i : Instr} (h : usesDptr i = false) : (assigned s i).dptr = s.dptr := by
  cases i with
  | denc ra width => cases h
  | ddec rd width => cases h
  | _ => rfl

/-- R25: no command but COPRIME assigns CP. -/
theorem cp_assigned {s : State} {i : Instr} (h : ∀ ra rb, i ≠ .coprime ra rb) : (assigned s i).cp = s.cp := by
  cases i with
  | coprime ra rb => exact absurd rfl (h ra rb)
  | _ => rfl

theorem storesCells_of_not_usesDptr {i : Instr} (h : usesDptr i = false) : storesCells i = 0 := by
  cases i with
  | denc ra width => cases h
  | _ => rfl

/-- Settles O12: a fault changes STATUS only, and what a completed command assigns is framed field by field. -/
theorem frameOfArithmeticCommands : Obligations.FrameOfArithmeticCommands := by
  unfold Obligations.FrameOfArithmeticCommands
  intro i s t hu ht
  have hstatus := exec_commitStatus ht
  have hrest := exec_untouched ht
  rcases exec_outcome ht with ⟨c, -, rfl⟩ | ⟨-, rfl⟩
  · exact ⟨fun _ _ => rfl, fun _ => rfl, rfl, fun _ => rfl, hstatus, hrest⟩
  · have hdmem := dmem_assigned (s := s) (storesCells_of_not_usesDptr hu)
    exact ⟨fun _ hr => getN_assigned_of_not_mem hr, fun k => congrArg (Memory.read · k) hdmem, dptr_assigned hu,
      cp_assigned, hstatus, hrest⟩

/-- What a command reads in two states is the same: the parameters, its source registers, and DPTR and the field's
cells where it uses them (R22, R31, R53). -/
structure SameSources (i : Instr) (s1 s2 : State) : Prop where
  cfg : s1.cfg = s2.cfg
  regs : ∀ r ∈ readsN i, s1.getN r = s2.getN r
  pointer : usesDptr i = true → s1.dptr = s2.dptr
  cells : ∀ k, k < readsCells i → s1.getCell (s1.fieldStart + k) = s2.getCell (s2.fieldStart + k)

/-- Fields whose cells agree are the same list. -/
theorem field_congr {s1 s2 : State} {w : Nat}
    (h : ∀ k, k < w → s1.getCell (s1.fieldStart + k) = s2.getCell (s2.fieldStart + k)) : s1.field w = s2.field w :=
  List.map_congr_left fun k hk => h k (List.mem_range.1 hk)

theorem fieldOutside_congr {s1 s2 : State} (hcfg : s1.cfg = s2.cfg) (hd : s1.dptr = s2.dptr) (w : Nat) :
    s1.fieldOutside w = s2.fieldOutside w := by
  rw [State.fieldOutside, State.fieldOutside, State.fieldStart, State.fieldStart, hcfg, hd]

namespace SameSources

variable {s1 s2 : State}

theorem faultOf_eq {i : Instr} (h : SameSources i s1 s2) : faultOf s1 i = faultOf s2 i := by
  obtain ⟨hcfg, hregs, hptr, hcells⟩ := h
  cases i with
  | egcd rd rx ry ra rb => simp only [faultOf, hcfg, hregs ra (by simp [readsN]), hregs rb (by simp [readsN])]
  | coprime ra rb => rfl
  | modinv rd ra rb => simp only [faultOf, hregs ra (by simp [readsN]), hregs rb (by simp [readsN])]
  | modexp rd ra rb rc =>
    simp only [faultOf, hregs ra (by simp [readsN]), hregs rb (by simp [readsN]), hregs rc (by simp [readsN])]
  | denc ra width => simp only [faultOf, fieldOutside_congr hcfg (hptr rfl), hregs ra (by simp [readsN])]
  | ddec rd width =>
    have hfield : s1.field width.toNat = s2.field width.toNat := field_congr hcells
    simp only [faultOf, fieldOutside_congr hcfg (hptr rfl), hfield, hcfg]

/-- R22: the destination registers. -/
theorem getN_assigned_eq {i : Instr} (h : SameSources i s1 s2) {r : Reg} (hr : r ∈ writesN i) :
    (assigned s1 i).getN r = (assigned s2 i).getN r := by
  obtain ⟨-, hregs, -, hcells⟩ := h
  cases i with
  | egcd rd rx ry ra rb =>
    have hr' : r = rd ∨ r = rx ∨ r = ry := by simpa [writesN] using hr
    simp only [assigned, State.getN_setN, hregs ra (by simp [readsN]), hregs rb (by simp [readsN])]
    rcases hr' with rfl | rfl | rfl <;> simp only [if_true]
  | coprime ra rb => cases hr
  | modinv rd ra rb =>
    obtain rfl : r = rd := by simpa [writesN] using hr
    simp only [assigned, State.getN_setN_same, hregs ra (by simp [readsN]), hregs rb (by simp [readsN])]
  | modexp rd ra rb rc =>
    obtain rfl : r = rd := by simpa [writesN] using hr
    simp only [assigned, State.getN_setN_same, hregs ra (by simp [readsN]), hregs rb (by simp [readsN]),
      hregs rc (by simp [readsN])]
  | denc ra width => cases hr
  | ddec rd width =>
    obtain rfl : r = rd := by simpa [writesN] using hr
    have hfield : s1.field width.toNat = s2.field width.toNat := field_congr hcells
    simp only [assigned, State.getN_setDptr, State.getN_setN_same, hfield]

/-- R53: the stored cells. -/
theorem getCell_assigned_eq {i : Instr} (h : SameSources i s1 s2) (hw1 : Memory.wf s1.dmem) (hw2 : Memory.wf s2.dmem)
    {k : Nat} (hk : k < storesCells i) :
    (assigned s1 i).getCell (s1.fieldStart + k) = (assigned s2 i).getCell (s2.fieldStart + k) := by
  cases i with
  | denc ra width =>
    have hk' : ∀ v, k < (digits v width.toNat).length := fun v => (length_digits v _).symm ▸ hk
    simp only [assigned, State.getCell_setDptr, State.getCell_setCells_inside hw1 _ _ (hk' _),
      State.getCell_setCells_inside hw2 _ _ (hk' _), h.regs ra (by simp [readsN])]
  | _ => cases hk

theorem dptr_assigned_eq {i : Instr} (h : SameSources i s1 s2) (hu : usesDptr i = true) :
    (assigned s1 i).dptr = (assigned s2 i).dptr := by
  cases i with
  | denc ra width => simp only [assigned, State.setDptr_dptr, State.fieldStart, h.pointer rfl]
  | ddec rd width => simp only [assigned, State.setDptr_dptr, State.fieldStart, h.pointer rfl]
  | _ => cases hu

/-- R25: CP, by COPRIME. -/
theorem cp_assigned_eq {ra rb : Reg} (h : SameSources (.coprime ra rb) s1 s2) :
    (assigned s1 (.coprime ra rb)).cp = (assigned s2 (.coprime ra rb)).cp := by
  simp only [assigned, State.setCp_cp, h.regs ra (by simp [readsN]), h.regs rb (by simp [readsN])]

end SameSources

/-- Settles O15: the fault and every assignment are functions of what `SameSources` names. -/
theorem outcomeDependsOnSourcesOnly : Obligations.OutcomeDependsOnSourcesOnly := by
  unfold Obligations.OutcomeDependsOnSourcesOnly
  intro i s1 s2 t1 t2 hcfg hregs hptr hcells hw1 hw2 he1 he2 hc1 hc2 hx1 hx2
  have hs : SameSources i s1 s2 := ⟨hcfg, hregs, hptr, hcells⟩
  cases hf : faultOf s1 i with
  | some c =>
    obtain rfl : t1 = s1.takeFault c := by simpa using hx1.symm.trans (exec_of_fault hf)
    obtain rfl : t2 = s2.takeFault c := by simpa using hx2.symm.trans (exec_of_fault (hs.faultOf_eq ▸ hf))
    exact ⟨rfl, rfl, fun he => by cases he⟩
  | none =>
    obtain rfl : t1 = (assigned s1 i).complete := by simpa using hx1.symm.trans (exec_of_noFault hf)
    obtain rfl : t2 = (assigned s2 i).complete := by
      simpa using hx2.symm.trans (exec_of_noFault (hs.faultOf_eq ▸ hf))
    refine ⟨?_, ?_, fun _ => ⟨fun _ hr => hs.getN_assigned_eq hr, fun _ hk => hs.getCell_assigned_eq hw1 hw2 hk,
      hs.dptr_assigned_eq, ?_⟩⟩
    · simp only [State.complete_err, err_assigned, he1, he2]
    · simp only [State.complete_errcode, errcode_assigned, hc1, hc2]
    · rintro ⟨ra, rb, rfl⟩
      exact hs.cp_assigned_eq

end Sys2Proof.Machine
end

section
/-! CP, the interrupt line and the parameters: what a turn of the machine can do to them (R25, R33, R37). -/

namespace Sys2Proof.Machine

theorem zeroed_resetOf (cfg : Config) : (State.resetOf cfg).Zeroed where
  regs r := by simp [State.getN, State.resetOf]
  cells _ := rfl
  pointer := rfl
  flag := rfl
  status := ⟨rfl, rfl, rfl, rfl⟩
  code := rfl
  enables := ⟨rfl, rfl⟩
  latch := rfl

theorem zeroed_resetBlock (s : State) : s.resetBlock.Zeroed := { zeroed_resetOf s.cfg with }

/-- R25, R32: a host turn leaves CP as it is, or is a soft reset. -/
theorem hostTurn_cp {a : HostAccess} {s t : State} (h : hostTurn a s = .next t) : t.cp = s.cp ∨ t.Zeroed := by
  rcases hostTurn_cases h with ⟨_, _, loc, _, _, rfl⟩ | ⟨_, _, v, loc, _, _, rfl⟩
  · exact .inl rfl
  · exact State.writeLoc_elim (P := fun u => u.cp = s.cp ∨ u.Zeroed) (ignored := .inl rfl) (rejected := .inl rfl)
      (issued := fun _ _ => .inl rfl) (status := .inl (by rw [writeStatus_eq])) (inten := .inl rfl)
      (pointer := .inl rfl) (reset := .inr (zeroed_resetBlock s)) (register := fun _ _ _ => .inl rfl)
      (cells := fun _ _ => .inl rfl) loc

/-- R25: a command that changes CP is a COPRIME, and gives it whether the gcd is 1. -/
theorem exec_cp {i : Instr} {s t : State} (h : exec i s = .next t) (hcp : t.cp ≠ s.cp) :
    ∃ ra rb, i = .coprime ra rb ∧ t.cp = decide ((xgcd (s.getN ra) (s.getN rb)).g = 1) := by
  rcases exec_outcome h with ⟨c, -, rfl⟩ | ⟨-, rfl⟩
  · exact absurd rfl hcp
  · by_cases hi : ∃ ra rb, i = .coprime ra rb
    · obtain ⟨ra, rb, rfl⟩ := hi
      exact ⟨ra, rb, rfl, rfl⟩
    · exact absurd (cp_assigned fun ra rb e => hi ⟨ra, rb, e⟩) hcp

/-- Settles O48: of the turns, only the commit of COPRIME and the two resets assign CP. -/
theorem onlyCoprimeWritesCp : Obligations.OnlyCoprimeWritesCp := by
  unfold Obligations.OnlyCoprimeWritesCp
  intro s t h hcp
  rcases step_cases h with ⟨a, -, ha⟩ | ⟨hn, he⟩ | ⟨-, rfl⟩
  · exact .inr ((hostTurn_cp ha).resolve_left hcp)
  · left
    rcases engineTurn_cases he with ⟨-, rfl⟩ | ⟨-, -, rfl⟩ | ⟨hb, i, hd, hx⟩
    · exact absurd rfl hcp
    · exact absurd rfl hcp
    · obtain ⟨ra, rb, rfl, ht⟩ := exec_cp hx hcp
      simp only [xgcd_g_eq, Nat.cast_eq_one] at ht
      exact ⟨ra, rb, hn, hb, hd, ht⟩
  · exact .inr (zeroed_resetBlock _)

/-- Settles O49: DONE = ERR = 0 while BUSY = 1, and a commit sets exactly one of the two. -/
theorem interruptLine : Obligations.InterruptLine := by
  unfold Obligations.InterruptLine
  intro s h hb
  obtain ⟨hdone, herr⟩ := h.busyAlone hb
  refine ⟨by simp [State.irq, hdone, herr], fun t ht => ?_⟩
  obtain ⟨⟨-, hend⟩, -, hdie, heie, -⟩ := engineTurn_commitStatus hb ht
  rcases hend with ⟨htd, hte, -⟩ | ⟨htd, hte, -⟩
  · simp [State.irq, htd, hte, herr, hdie]
  · simp [State.irq, htd, hte, hdone, heie]

/-- R33: no host write changes the parameters. -/
theorem writeLoc_cfg (s : State) (v : Word) (loc : Loc) : (s.writeLoc v loc).cfg = s.cfg :=
  State.writeLoc_elim (P := fun u => u.cfg = s.cfg) (ignored := rfl) (rejected := rfl) (issued := fun _ _ => rfl)
    (status := by rw [writeStatus_eq]) (inten := rfl) (pointer := rfl) (reset := rfl) (register := fun _ _ _ => rfl)
    (cells := fun _ _ => rfl) loc

/-- R33: no turn changes the parameters. -/
theorem step_cfg {s t : State} (h : step s = .next t) : t.cfg = s.cfg := by
  rcases step_cases h with ⟨a, -, ha⟩ | ⟨-, he⟩ | ⟨-, rfl⟩
  · rcases hostTurn_cases ha with ⟨_, _, loc, _, _, rfl⟩ | ⟨_, _, v, loc, _, _, rfl⟩
    · rfl
    · exact writeLoc_cfg s.popTurn v loc
  · rcases engineTurn_cases he with ⟨-, rfl⟩ | ⟨-, -, rfl⟩ | ⟨-, i, -, hx⟩
    · rfl
    · rfl
    · obtain ⟨-, -, -, -, hcfg, -⟩ := exec_untouched hx
      exact hcfg
  · rfl

/-- R33: XLEN in bits 15:0, DLEN in bits 31:16. -/
theorem toNat_paramWord {s : State} (h : s.cfg.Legal) : s.paramWord.toNat = s.cfg.xlen + 65536 * s.cfg.dlen := by
  obtain ⟨⟨-, -, hx⟩, -, -, hd⟩ := h
  rw [State.paramWord, BitVec.toNat_append, BitVec.toNat_ofNat, BitVec.toNat_ofNat, Nat.mod_eq_of_lt (by omega),
    Nat.mod_eq_of_lt (by omega), ← Nat.shiftLeft_add_eq_or_of_lt (by omega), Nat.shiftLeft_eq]
  omega

/-- R29: ERRCODE reads the code of R190. -/
theorem errcodeWord_of_some {s : State} {c : FaultCode} (h : s.errcode = some c) :
    s.errcodeWord = BitVec.ofNat 32 c.code := by
  simp only [State.errcodeWord, h]

theorem errcodeWord_of_none {s : State} (h : s.errcode = none) : s.errcodeWord = 0 := by
  simp only [State.errcodeWord, h]

/-- R29: ERRCODE reads 0 exactly without a pending fault, and no more than 6. -/
theorem errcodeWord_eq_zero_iff (s : State) : s.errcodeWord = 0 ↔ s.errcode = none := by
  cases h : s.errcode with
  | none => simp [errcodeWord_of_none h]
  | some c => rw [errcodeWord_of_some h]; cases c <;> decide

theorem toNat_errcodeWord_le (s : State) : s.errcodeWord.toNat ≤ 6 := by
  cases h : s.errcode with
  | none => simp [errcodeWord_of_none h]
  | some c => rw [errcodeWord_of_some h]; cases c <;> decide

/-- Settles O40: ERRCODE and PARAM are words of the state, and writes at their offsets are ignored. -/
theorem readOnlyRegisters : Obligations.ReadOnlyRegisters := by
  unfold Obligations.ReadOnlyRegisters
  intro s h
  have hnone : s.errcode = none ↔ s.err = false := by
    rw [← Bool.not_eq_true, h.errHasCode, not_ne_iff]
  refine ⟨fun v => ⟨?_, ?_⟩, ⟨s.errcodeWord, ?_, ?_, ?_, ?_⟩, ⟨s.paramWord, ?_, ?_⟩, fun t ht => step_cfg ht⟩
  · exact hostTurn_write_ok s v portLoc_errcode
  · exact hostTurn_write_ok s v portLoc_param
  · exact hostTurn_read_ok s portLoc_errcode
  · exact (errcodeWord_eq_zero_iff s).trans hnone
  · exact toNat_errcodeWord_le s
  · exact ⟨errcodeWord_of_some, errcodeWord_of_some, errcodeWord_of_some, errcodeWord_of_some, errcodeWord_of_some,
      errcodeWord_of_some⟩
  · exact hostTurn_read_ok s portLoc_param
  · exact toNat_paramWord h.legal

end Sys2Proof.Machine
end

section
/-! The control registers CTRL, STATUS, INTEN and DPTR, read and written at their offsets (R28, R30, R31, R32). -/

namespace Sys2Proof.Machine

/-- R32: a host write to CTRL with bit 0 set is a soft reset, whatever BUSY is. -/
theorem hostTurn_softReset (s : State) {v : Word} (h : v.getLsbD 0 = true) :
    hostTurn (.write 0x0014 4 v) s = .next s.resetBlock := by
  rw [hostTurn_write_ok s v portLoc_ctrl]
  exact congrArg _ (if_pos h)

/-- Settles O35: reset and soft reset both answer `resetBlock`. -/
theorem resetZeroesEverything : Obligations.ResetZeroesEverything := by
  unfold Obligations.ResetZeroesEverything
  refine ⟨zeroed_resetOf _, fun s => ?_⟩
  exact ⟨s.resetBlock, rfl, hostTurn_softReset s rfl, zeroed_resetBlock s, rfl, rfl, rfl, rfl⟩

/-- Settles O36: bit 0 chooses between `resetBlock` and nothing. -/
theorem ctrlSoftReset : Obligations.CtrlSoftReset := by
  unfold Obligations.CtrlSoftReset
  refine fun s v => ⟨fun h => ⟨s.resetBlock, hostTurn_softReset s h, zeroed_resetBlock s, rfl, rfl, rfl⟩, fun h => ?_,
    hostTurn_read_ok s portLoc_ctrl⟩
  rw [hostTurn_write_ok s v portLoc_ctrl]
  exact congrArg _ (if_neg (Bool.eq_false_iff.1 h))

/-- Five bits spelled as a number are read back one by one. -/
theorem getLsbD_fiveBits : ∀ b0 b1 b2 b3 b4 : Bool,
    let d := BitVec.ofNat 32 (b0.toNat + 2 * b1.toNat + 4 * b2.toNat + 8 * b3.toNat + 16 * b4.toNat)
    d.getLsbD 0 = b0 ∧ d.getLsbD 1 = b1 ∧ d.getLsbD 2 = b2 ∧ d.getLsbD 3 = b3 ∧ d.getLsbD 4 = b4 ∧
      d.toNat < 2 ^ 5 := by
  decide

/-- Settles O37: STATUS spells five bits, so the bits from 5 up are 0. -/
theorem statusReadAndClear : Obligations.StatusReadAndClear := by
  unfold Obligations.StatusReadAndClear
  intro s v
  obtain ⟨h0, h1, h2, h3, h4, hlt⟩ := getLsbD_fiveBits s.busy s.done s.err s.cp s.rej
  refine ⟨?_, s.statusWord, hostTurn_read_ok s portLoc_status, h0, h1, h2, h3, h4, fun k hk => ?_⟩
  · rw [hostTurn_write_ok s v portLoc_status, ← writeStatus_eq]
    rfl
  · exact Nat.testBit_lt_two_pow (hlt.trans_le (Nat.pow_le_pow_right (by norm_num) hk))

/-- R30: the two enables stand in bits 1 and 2. -/
theorem getLsbD_enables : ∀ (doneIe errIe : Bool) (i : Nat), i < 32 →
    (BitVec.ofNat 32 (2 * doneIe.toNat + 4 * errIe.toNat)).getLsbD i =
      (doneIe && decide (i = 1) || errIe && decide (i = 2)) := by
  decide

theorem getLsbD_enableMask : ∀ i : Nat, i < 32 → (0x6 : Word).getLsbD i = (decide (i = 1) || decide (i = 2)) := by
  decide

/-- R30: INTEN reads back bits 1 and 2 of the word written, and 0 elsewhere. -/
theorem intenWord_writeInten (s : State) (v : Word) : (s.writeInten v).intenWord = v &&& 0x6 := by
  apply BitVec.eq_of_getLsbD_eq
  intro i hi
  rw [State.intenWord, State.writeInten_doneIe, State.writeInten_errIe, getLsbD_enables _ _ i hi, BitVec.getLsbD_and,
    getLsbD_enableMask i hi]
  by_cases h1 : i = 1
  · subst h1; simp
  · by_cases h2 : i = 2
    · subst h2; simp
    · simp [h1, h2]

/-- Settles O38: the word read back is the word written, masked to the two enables. -/
theorem intenReadAndWrite : Obligations.IntenReadAndWrite := by
  unfold Obligations.IntenReadAndWrite
  intro s v
  refine ⟨s.writeInten v, hostTurn_write_ok s v portLoc_inten, rfl, ?_, rfl⟩
  rw [hostTurn_read_ok _ portLoc_inten, ← intenWord_writeInten s v]
  rfl

/-- R31: DPTR reads as the number it holds. -/
theorem toNat_dptrWord (s : State) : s.dptrWord.toNat = s.dptr.toNat := by
  have := s.dptr.isLt
  rw [State.dptrWord, BitVec.toNat_ofNat, Nat.mod_eq_of_lt (by omega)]

/-- R31: a write to DPTR stores bits 15:0. -/
theorem toNat_dptr_setDptr_bits (s : State) (v : Word) : (s.setDptr (bits v 15 0)).dptr.toNat = v.toNat % 65536 := by
  simp [bits]

/-- R151, R154: a field that starts above DLEN does not fit, whatever its width. -/
theorem faultOf_dbounds {s : State} (h : s.cfg.dlen < s.fieldStart) (r : Reg) (width : BitVec 12) :
    faultOf s (.denc r width) = some .dbounds ∧ faultOf s (.ddec r width) = some .dbounds := by
  have hout : s.fieldOutside width.toNat = true := (s.fieldOutside_iff _).2 (h.trans_le (Nat.le_add_right _ _))
  exact ⟨if_pos hout, if_pos hout⟩

/-- Settles O39: DPTR above DLEN is stored, and then no field at it fits in DMEM. -/
theorem dptrReadAndWrite : Obligations.DptrReadAndWrite := by
  unfold Obligations.DptrReadAndWrite
  intro s v
  have hdptr := toNat_dptr_setDptr_bits s v
  refine ⟨⟨s.dptrWord, hostTurn_read_ok s portLoc_dptr, toNat_dptrWord s⟩, fun hb => ?rejected, fun hb =>
    ⟨s.setDptr (bits v 15 0), ?stored, rfl, hdptr, ?readBack, fun hout r width => ?faults⟩⟩
  case rejected =>
    rw [hostTurn_write_ok s v portLoc_dptr]
    exact congrArg _ (if_pos hb)
  case stored =>
    rw [hostTurn_write_ok s v portLoc_dptr]
    exact congrArg _ (if_neg (Bool.eq_false_iff.1 hb))
  case readBack => exact ⟨_, hostTurn_read_ok _ portLoc_dptr, (toNat_dptrWord _).trans hdptr⟩
  case faults =>
    obtain ⟨hdenc, hddec⟩ := faultOf_dbounds (s := s.setDptr (bits v 15 0)) (hdptr.symm ▸ hout :) r width
    exact ⟨exec_of_fault hdenc, exec_of_fault hddec⟩

end Sys2Proof.Machine
end

section
/-! The register map of R56, said once, and the accesses the port answers: what a read leaves (R54), what is reserved
(R59) and what is refused (R52). -/

namespace Sys2Proof.Machine

/-- R56: the offsets that a location stands at. -/
def Loc.StandsAt (addr : Nat) : Loc → Prop
  | .cmd => addr = 0x0000
  | .status => addr = 0x0004
  | .errcode => addr = 0x0008
  | .inten => addr = 0x000C
  | .dptr => addr = 0x0010
  | .ctrl => addr = 0x0014
  | .param => addr = 0x0018
  | .nWord i j => addr = nWordAddr i j
  | .dWord w => addr = dWordAddr w
  | .reserved => (0x001C ≤ addr ∧ addr ≤ 0x0FFC) ∨ (0x3000 ≤ addr ∧ addr ≤ 0x3FFC)

/-- R56: what an aligned offset names stands at that offset. -/
theorem standsAt_locOf {addr : Nat} (h4 : addr % 4 = 0) : (locOf addr).StandsAt addr := by
  unfold locOf
  split_ifs with hcmd hstatus herrcode hinten hdptr hctrl hparam hlow hn hhigh
  · exact hcmd
  · exact hstatus
  · exact herrcode
  · exact hinten
  · exact hdptr
  · exact hctrl
  · exact hparam
  · exact .inl (by omega)
  · simp only [Loc.StandsAt, nWordAddr, Fin.val_ofNat]
    omega
  · exact .inr (by omega)
  · simp only [Loc.StandsAt, dWordAddr]
    omega

/-- R59: the aligned offsets of the two reserved ranges name nothing. -/
theorem locOf_reserved {addr : Nat} (h : (0x001C ≤ addr ∧ addr ≤ 0x0FFC) ∨ (0x3000 ≤ addr ∧ addr ≤ 0x3FFC)) :
    locOf addr = .reserved := by
  unfold locOf
  rcases h with ⟨hlo, hhi⟩ | ⟨hlo, hhi⟩
  · iterate 7 rw [if_neg (by omega)]
    exact if_pos (by omega)
  · iterate 9 rw [if_neg (by omega)]
    exact if_pos (by omega)

/-- Settles O43: both ranges name the reserved location, which reads 0 and ignores writes. -/
theorem reservedOffsets : Obligations.ReservedOffsets := by
  unfold Obligations.ReservedOffsets
  intro s addr v h4 h
  have hloc : portLoc addr 4 = .ok .reserved := by
    rw [portLoc_of h4 (by omega), locOf_reserved h]
  exact ⟨hostTurn_write_ok s v hloc, hostTurn_read_ok s hloc⟩

theorem portLoc_cmd : portLoc 0x0000 4 = .ok .cmd := rfl

/-- R54: what a read returns does not depend on what an earlier read returned. -/
theorem readLoc_setHostData (s : State) (d : Word) (loc : Loc) :
    ({ s with hostData := d } : State).readLoc loc = s.readLoc loc := by
  cases loc <;> rfl

/-- Settles O45: a read returns `readLoc` of what the offset names, which the data port is no part of. -/
theorem readsChangeNothing : Obligations.ReadsChangeNothing := by
  unfold Obligations.ReadsChangeNothing
  refine fun s => ⟨fun addr h4 h => ⟨s.readLoc (locOf addr), hostTurn_read_ok s (portLoc_of h4 h), fun d' => ?_⟩,
    hostTurn_read_ok s portLoc_cmd⟩
  rw [hostTurn_read_ok _ (portLoc_of h4 h), readLoc_setHostData]

/-- R50, R52: an offset and a width name no location exactly where the port does not carry them. -/
theorem portLoc_error_iff (addr size : Nat) :
    (∃ r, portLoc addr size = .error r) ↔ ¬(size = 4 ∧ addr % 4 = 0 ∧ addr ≤ 0x7FFC) := by
  constructor
  · rintro ⟨r, hr⟩ ⟨rfl, h4, hle⟩
    rw [portLoc_of h4 hle] at hr
    cases hr
  · intro h
    cases hp : portLoc addr size with
    | error r => exact ⟨r, rfl⟩
    | ok loc =>
      obtain ⟨hsize, h4, hle, -⟩ := portLoc_ok hp
      exact absurd ⟨hsize, h4, hle⟩ h

/-- R52: a host turn is refused for the reason the port gives. -/
theorem hostTurn_read_refused_iff {addr size : Nat} {s : State} {r : Refusal} :
    hostTurn (.read addr size) s = .refused r ↔ portLoc addr size = .error r := by
  cases hp : portLoc addr size <;> simp [hostTurn, hp]

theorem hostTurn_write_refused_iff {addr size : Nat} {v : Word} {s : State} {r : Refusal} :
    hostTurn (.write addr size v) s = .refused r ↔ portLoc addr size = .error r := by
  cases hp : portLoc addr size <;> simp [hostTurn, hp]

/-- Settles O46: a turn is refused where the port names no location. -/
theorem portRefusesExactly : Obligations.PortRefusesExactly := by
  unfold Obligations.PortRefusesExactly
  intro a s
  cases a with
  | read addr size =>
    simp only [hostTurn_read_refused_iff, portLoc_error_iff]
    simp [HostAccess.expressible]
  | write addr size v =>
    simp only [hostTurn_write_refused_iff, portLoc_error_iff]
    simp [HostAccess.expressible]

end Sys2Proof.Machine
end

section
/-! The host's writes that are rejected (R60), location by location, and what a write can change while a command is in
progress (R65). -/

namespace Sys2Proof.Machine

namespace State

variable {s : State}

/-- R60: the locations whose write is rejected. -/
def rejectsLoc (s : State) : Loc → Prop
  | .cmd => s.busy = true ∨ s.err = true
  | .dptr => s.busy = true
  | .nWord _ j => s.busy = true ∧ j < s.cfg.nWords
  | .dWord w => s.busy = true ∧ w < s.cfg.dWords
  | .status | .errcode | .inten | .ctrl | .param | .reserved => False

theorem unlessBusy_of_busy (h : s.busy = true) (s' : State) : s.unlessBusy s' = s.reject := if_pos h

theorem unlessBusy_of_idle (h : s.busy = false) (s' : State) : s.unlessBusy s' = s' :=
  if_neg (Bool.eq_false_iff.1 h)

/-- R57: a write to an implemented word of the N window, while the engine is idle. -/
theorem writeLoc_nWord_of_idle (hb : s.busy = false) (i : Reg) {j : Nat} (hj : j < s.cfg.nWords) (v : Word) :
    s.writeLoc v (.nWord i j) = s.writeNWord i j v :=
  (if_pos hj).trans (unlessBusy_of_idle hb _)

/-- R57: an unimplemented word of the N window ignores writes. -/
theorem writeLoc_nWord_unimplemented (i : Reg) {j : Nat} (hj : ¬j < s.cfg.nWords) (v : Word) :
    s.writeLoc v (.nWord i j) = s := if_neg hj

/-- R58: a write to an implemented word of the DMEM window, while the engine is idle. -/
theorem writeLoc_dWord_of_idle (hb : s.busy = false) {w : Nat} (hw : w < s.cfg.dWords) (v : Word) :
    s.writeLoc v (.dWord w) = s.writeDWord w v :=
  (if_pos hw).trans (unlessBusy_of_idle hb _)

/-- R58: an unimplemented word of the DMEM window ignores writes. -/
theorem writeLoc_dWord_unimplemented {w : Nat} (hw : ¬w < s.cfg.dWords) (v : Word) : s.writeLoc v (.dWord w) = s :=
  if_neg hw

/-- R60: a rejected write changes REJ and nothing else. -/
theorem writeLoc_of_rejectsLoc {loc : Loc} (h : s.rejectsLoc loc) (v : Word) : s.writeLoc v loc = s.reject := by
  cases loc with
  | cmd => exact if_pos (by simpa [rejectsLoc] using h)
  | dptr => exact unlessBusy_of_busy h _
  | nWord i j =>
    obtain ⟨hb, hj⟩ := h
    exact (if_pos hj).trans (unlessBusy_of_busy hb _)
  | dWord w =>
    obtain ⟨hb, hw⟩ := h
    exact (if_pos hw).trans (unlessBusy_of_busy hb _)
  | status | errcode | inten | ctrl | param | reserved => exact h.elim

/-- R60: no other write sets REJ. -/
theorem rej_of_writeLoc_of_not_rejectsLoc {loc : Loc} (h : ¬s.rejectsLoc loc) {v : Word}
    (hr : (s.writeLoc v loc).rej = true) : s.rej = true := by
  cases loc with
  | cmd =>
    have hacc : s.writeLoc v .cmd = s.issue v := if_neg (by simpa [rejectsLoc] using h)
    rwa [hacc] at hr
  | status =>
    rw [writeLoc, writeStatus_eq] at hr
    exact (Bool.and_eq_true_iff.1 hr).1
  | dptr => rwa [writeLoc, unlessBusy_of_idle (Bool.eq_false_iff.2 h)] at hr
  | ctrl =>
    simp only [writeLoc] at hr
    split at hr
    · cases hr
    · exact hr
  | nWord i j =>
    by_cases hj : j < s.cfg.nWords
    · rwa [writeLoc_nWord_of_idle (Bool.eq_false_iff.2 fun hb => h ⟨hb, hj⟩) i hj] at hr
    · rwa [writeLoc_nWord_unimplemented i hj] at hr
  | dWord w =>
    by_cases hw : w < s.cfg.dWords
    · rwa [writeLoc_dWord_of_idle (Bool.eq_false_iff.2 fun hb => h ⟨hb, hw⟩) hw] at hr
    · rwa [writeLoc_dWord_unimplemented hw] at hr
  | errcode | inten | param | reserved => exact hr

/-- R8, R57: a register has at most 256 words, which is what the window has room for. -/
theorem nWords_le (h : s.cfg.Legal) : s.cfg.nWords ≤ 256 := by
  obtain ⟨⟨-, -, hx⟩, -⟩ := h
  unfold Config.nWords
  omega

/-- R60's offsets are those of the rejecting locations. -/
theorem rejectsWrite_iff (hc : s.cfg.Legal) {addr : Nat} (h4 : addr % 4 = 0) :
    s.rejectsWrite addr ↔ s.rejectsLoc (locOf addr) := by
  constructor
  · rintro (⟨hb, rfl | rfl | ⟨i, j, hj, rfl⟩ | ⟨w, hw, rfl⟩⟩ | ⟨-, he, rfl⟩)
    · exact .inl hb
    · exact hb
    · rw [locOf_nWordAddr i j (hj.trans_le (nWords_le hc))]
      exact ⟨hb, hj⟩
    · rw [locOf_dWordAddr]
      exact ⟨hb, hw⟩
    · exact .inr he
  · have hat := standsAt_locOf h4
    intro h
    cases hl : locOf addr with
    | cmd =>
      rw [hl] at hat h
      cases hb : s.busy with
      | true => exact .inl ⟨hb, .inl hat⟩
      | false => exact .inr ⟨hb, h.resolve_left (Bool.eq_false_iff.1 hb), hat⟩
    | dptr =>
      rw [hl] at hat h
      exact .inl ⟨h, .inr (.inl hat)⟩
    | nWord i j =>
      rw [hl] at hat h
      obtain ⟨hb, hj⟩ := h
      exact .inl ⟨hb, .inr (.inr (.inl ⟨i, j, hj, hat⟩))⟩
    | dWord w =>
      rw [hl] at hat h
      obtain ⟨hb, hw⟩ := h
      exact .inl ⟨hb, .inr (.inr (.inr ⟨w, hw, hat⟩))⟩
    | status | errcode | inten | ctrl | param | reserved =>
      rw [hl] at h
      exact h.elim

end State

/-- Settles O44: R60's offsets name the rejecting locations, and only those set REJ. -/
theorem rejectedWritesExactly : Obligations.RejectedWritesExactly := by
  unfold Obligations.RejectedWritesExactly
  intro s addr v hc h4 hle
  rw [State.rejectsWrite_iff hc h4, hostTurn_write_ok s v (portLoc_of h4 hle)]
  refine ⟨fun h => congrArg _ (State.writeLoc_of_rejectsLoc h v), fun h t ht hr => ?_⟩
  cases ht
  exact State.rej_of_writeLoc_of_not_rejectsLoc h hr

/-- R100: the two states hold the same command, and the same values for all that a command reads or assigns. -/
def SameOperands (s t : State) : Prop :=
  t.n = s.n ∧ t.dmem = s.dmem ∧ t.dptr = s.dptr ∧ t.cp = s.cp ∧ t.cmdreg = s.cmdreg

/-- R60, R65: a host write while a command is in progress leaves what the command reads as it is, or abandons the
command by a soft reset. -/
theorem writeLoc_of_busy {s : State} (hb : s.busy = true) (v : Word) (loc : Loc) :
    SameOperands s (s.writeLoc v loc) ∨ (s.writeLoc v loc).busy = false := by
  have same : SameOperands s s := ⟨rfl, rfl, rfl, rfl, rfl⟩
  by_cases hrej : s.rejectsLoc loc
  · rw [State.writeLoc_of_rejectsLoc hrej]
    exact .inl same
  · cases loc with
    | cmd => exact absurd (.inl hb) hrej
    | dptr => exact absurd hb hrej
    | status =>
      left
      rw [State.writeLoc, writeStatus_eq]
      exact same
    | ctrl =>
      simp only [State.writeLoc]
      split
      · exact .inr rfl
      · exact .inl same
    | nWord i j =>
      rw [State.writeLoc_nWord_unimplemented i fun hj => hrej ⟨hb, hj⟩]
      exact .inl same
    | dWord w =>
      rw [State.writeLoc_dWord_unimplemented fun hw => hrej ⟨hb, hw⟩]
      exact .inl same
    | errcode | inten | param | reserved => exact .inl same

/-- Settles O10: a commit and a reset end BUSY, and of the host's writes so does a soft reset alone. -/
theorem operandsStableWhileBusy : Obligations.OperandsStableWhileBusy := by
  unfold Obligations.OperandsStableWhileBusy
  intro s t hb h hbt
  rcases step_cases h with ⟨a, -, ha⟩ | ⟨-, he⟩ | ⟨-, rfl⟩
  · rcases hostTurn_cases ha with ⟨_, _, loc, _, _, rfl⟩ | ⟨_, _, v, loc, _, _, rfl⟩
    · exact ⟨rfl, rfl, rfl, rfl, rfl⟩
    · exact (writeLoc_of_busy (s := s.popTurn) hb v loc).resolve_right (by simp [hbt])
  · obtain ⟨⟨hidle, -⟩, -⟩ := engineTurn_commitStatus (s := s.popTurn) hb he
    rw [hbt] at hidle
    cases hidle
  · cases hbt

end Sys2Proof.Machine
end

section
/-! The two memory windows: which bits of a register's word and which cells of DMEM a host word is (R51, R57, R58). -/

namespace Sys2Proof.Machine

/-! The N window -/

/-- R57: bits 32j+31..32j are those of the word written, the others stay. -/
theorem testBit_putWord (u j : Nat) (v : Word) (k : Nat) :
    (putWord u j v).testBit k =
      if k < 32 * j then u.testBit k else if k < 32 * (j + 1) then v.getLsbD (k - 32 * j) else u.testBit k := by
  have hlo : u % 2 ^ (32 * j) < 2 ^ (32 * j) := Nat.mod_lt _ (Nat.two_pow_pos _)
  have hmid : 2 ^ (32 * j) * v.toNat + u % 2 ^ (32 * j) < 2 ^ (32 * (j + 1)) := by
    have hv := v.isLt
    calc 2 ^ (32 * j) * v.toNat + u % 2 ^ (32 * j) < 2 ^ (32 * j) * (v.toNat + 1) := by rw [Nat.mul_succ]; omega
      _ ≤ 2 ^ (32 * j) * 2 ^ 32 := Nat.mul_le_mul_left _ hv
      _ = 2 ^ (32 * (j + 1)) := (pow_add 2 _ _).symm
  have hput : putWord u j v =
      2 ^ (32 * (j + 1)) * (u / 2 ^ (32 * (j + 1))) + (2 ^ (32 * j) * v.toNat + u % 2 ^ (32 * j)) := by
    unfold putWord
    ring
  rw [hput, Nat.testBit_two_pow_mul_add _ hmid]
  split_ifs with htop hlow hlow
  · rw [Nat.testBit_two_pow_mul_add _ hlo, if_pos hlow, Nat.testBit_mod_two_pow, decide_eq_true hlow, Bool.true_and]
  · rw [Nat.testBit_two_pow_mul_add _ hlo, if_neg hlow]
    rfl
  · omega
  · rw [← Nat.testBit_add, Nat.sub_add_cancel (not_lt.1 htop)]

theorem getLsbD_wordAt (u j i : Nat) (hi : i < 32) : (wordAt u j).getLsbD i = u.testBit (32 * j + i) := by
  rw [wordAt, BitVec.getLsbD_ofNat, Nat.testBit_div_two_pow, decide_eq_true hi, Bool.true_and, Nat.add_comm]

/-- R57: the other words keep their bits. -/
theorem wordAt_putWord_other {j j' : Nat} (h : j' ≠ j) (u : Nat) (v : Word) :
    wordAt (putWord u j v) j' = wordAt u j' := by
  apply BitVec.eq_of_getLsbD_eq
  intro i hi
  rw [getLsbD_wordAt _ _ _ hi, getLsbD_wordAt _ _ _ hi, testBit_putWord]
  split_ifs
  · rfl
  · omega
  · rfl

namespace State.Inv

variable {s : State}

/-- R57: the register's word after the write is the one with the 32 bits replaced. -/
theorem sext_getN_writeNWord (h : s.Inv) (i : Reg) {j : Nat} (hj : j < s.cfg.nWords) (v : Word) :
    sext s.cfg.xlen ((s.writeNWord i j v).getN i) = putWord (sext s.cfg.xlen (s.getN i)) j v := by
  obtain ⟨⟨h32, -⟩, -⟩ := h.legal
  have hx : 32 * s.cfg.nWords = s.cfg.xlen := by unfold Config.nWords; omega
  have hu := putWord_lt v (hx ▸ sext_lt s.cfg.xlen (s.getN i)) hj
  rw [State.writeNWord, State.getN_setN_same, sext_signed (hx ▸ hu)]

/-- R57: what the register's words read after the write. -/
theorem readNWord_writeNWord (h : s.Inv) (i : Reg) {j : Nat} (hj : j < s.cfg.nWords) (v : Word) (j' : Nat) :
    (s.writeNWord i j v).readNWord i j' =
      if j' < s.cfg.nWords then wordAt (putWord (sext s.cfg.xlen (s.getN i)) j v) j' else 0 := by
  rw [← h.sext_getN_writeNWord i hj v]
  rfl

theorem readNWord_writeNWord_same (h : s.Inv) (i : Reg) {j : Nat} (hj : j < s.cfg.nWords) (v : Word) :
    (s.writeNWord i j v).readNWord i j = v := by
  rw [h.readNWord_writeNWord i hj, if_pos hj, wordAt_putWord_same]

theorem readNWord_writeNWord_other (h : s.Inv) (i : Reg) {j j' : Nat} (hj : j < s.cfg.nWords) (hne : j' ≠ j)
    (v : Word) : (s.writeNWord i j v).readNWord i j' = s.readNWord i j' := by
  rw [h.readNWord_writeNWord i hj, wordAt_putWord_other hne, State.readNWord]

end State.Inv

/-- Settles O41: a write replaces 32 bits of the register's word, and every word of XLEN bits is a register's value. -/
theorem registerWindow : Obligations.RegisterWindow := by
  unfold Obligations.RegisterWindow
  intro s i j v h hj256
  have hloc := portLoc_nWordAddr i j hj256
  refine ⟨fun hj => ⟨s.readNWord i j, hostTurn_read_ok s hloc, ?bits⟩,
    fun hj hb => ⟨s.writeNWord i j v, ?stored, ?onlyRegister, ?readBack, ?otherWords, ?range⟩,
    fun hj => ⟨?ignored, ?zero⟩⟩
  case bits => rw [State.readNWord, if_pos hj, toNat_wordAt]
  case stored => rw [hostTurn_write_ok s v hloc, State.writeLoc_nWord_of_idle hb i hj]
  case onlyRegister => rw [State.writeNWord, State.getN_setN_same]
  case readBack => rw [hostTurn_read_ok _ hloc, State.readLoc, h.readNWord_writeNWord_same i hj]
  case otherWords => exact fun j' hne => h.readNWord_writeNWord_other i hj hne v
  case range => exact (h.writeNWord i hj v).inRange i
  case ignored => rw [hostTurn_write_ok s v hloc, State.writeLoc_nWord_unimplemented i (not_lt.2 hj)]
  case zero => rw [hostTurn_read_ok s hloc, State.readLoc, State.readNWord, if_neg (not_lt.2 hj)]

/-! The DMEM window -/

/-- A word is its four byte lanes. -/
theorem eq_of_lane_eq {v v' : Word} (h : ∀ k, k < 4 → lane v k = lane v' k) : v = v' := by
  apply BitVec.eq_of_getLsbD_eq
  intro i hi
  have hbit : ∀ u : Word, (lane u (i / 8)).getLsbD (i % 8) = u.getLsbD i := fun u => by
    rw [lane, BitVec.getLsbD_extractLsb', decide_eq_true (Nat.mod_lt i (by norm_num)), Bool.true_and, Nat.div_add_mod]
  rw [← hbit v, ← hbit v', h (i / 8) (by omega)]

/-- The lanes of four concatenated bytes, the last one in lane 0. -/
theorem lane_append (b3 b2 b1 b0 : Byte) :
    lane (b3 ++ b2 ++ b1 ++ b0) 0 = b0 ∧ lane (b3 ++ b2 ++ b1 ++ b0) 1 = b1 ∧
      lane (b3 ++ b2 ++ b1 ++ b0) 2 = b2 ∧ lane (b3 ++ b2 ++ b1 ++ b0) 3 = b3 := by
  refine ⟨BitVec.extractLsb'_append_eq_right, ?_, ?_, ?_⟩
  · exact (BitVec.extractLsb'_append_eq_of_le (by decide)).trans BitVec.extractLsb'_append_eq_right
  · exact (BitVec.extractLsb'_append_eq_of_le (by decide)).trans
      ((BitVec.extractLsb'_append_eq_of_le (by decide)).trans BitVec.extractLsb'_append_eq_right)
  · exact (BitVec.extractLsb'_append_eq_of_le (by decide)).trans
      ((BitVec.extractLsb'_append_eq_of_le (by decide)).trans BitVec.extractLsb'_append_eq_left)

namespace State

variable {s : State}

/-- R58: lane k of the word is cell 4w + k. -/
theorem lane_readDWord {w k : Nat} (hw : w < s.cfg.dWords) (hk : k < 4) :
    lane (s.readDWord w) k = s.getCell (4 * w + k) := by
  obtain ⟨h0, h1, h2, h3⟩ := lane_append (s.getCell (4 * w + 3)) (s.getCell (4 * w + 2)) (s.getCell (4 * w + 1))
    (s.getCell (4 * w))
  rw [readDWord, if_pos hw]
  interval_cases k
  · exact h0
  · exact h1
  · exact h2
  · exact h3

theorem writeDWord_eq (s : State) (w : Nat) (v : Word) :
    s.writeDWord w v = s.setCells (4 * w) ((List.range 4).map (lane v)) := rfl

/-- R58: the cells of the word are the lanes written. -/
theorem getCell_writeDWord_inside (hm : Memory.wf s.dmem) (w : Nat) (v : Word) {k : Nat} (hk : k < 4) :
    (s.writeDWord w v).getCell (4 * w + k) = lane v k := by
  rw [writeDWord_eq, getCell_setCells_inside hm _ _ (by simpa using hk), List.getElem_map, List.getElem_range]

theorem getCell_writeDWord_outside (hm : Memory.wf s.dmem) (w : Nat) (v : Word) {k : Nat}
    (hk : ¬(4 * w ≤ k ∧ k < 4 * w + 4)) : (s.writeDWord w v).getCell k = s.getCell k :=
  getCell_setCells_outside hm _ _ hk

/-- R58: the word written is the word read back. -/
theorem readDWord_writeDWord_same (hm : Memory.wf s.dmem) {w : Nat} (hw : w < s.cfg.dWords) (v : Word) :
    (s.writeDWord w v).readDWord w = v :=
  eq_of_lane_eq fun k hk => by
    rw [lane_readDWord (s := s.writeDWord w v) hw hk, getCell_writeDWord_inside hm w v hk]

end State

/-- Settles O42: the lanes of the word are the four cells, and a write stores all four. -/
theorem digitWindow : Obligations.DigitWindow := by
  unfold Obligations.DigitWindow
  intro s w v h hw4096
  have hloc := portLoc_dWordAddr w hw4096
  refine ⟨fun hw => ⟨s.readDWord w, hostTurn_read_ok s hloc, fun k hk => State.lane_readDWord hw hk⟩,
    fun hw hb => ⟨s.writeDWord w v, ?stored, rfl, fun k hk => State.getCell_writeDWord_inside h.cellsWf w v hk,
      fun k hk => State.getCell_writeDWord_outside h.cellsWf w v hk, ?readBack⟩,
    fun hw => ⟨?ignored, ?zero⟩⟩
  case stored => rw [hostTurn_write_ok s v hloc, State.writeLoc_dWord_of_idle hb hw]
  case readBack => rw [hostTurn_read_ok _ hloc, State.readLoc, State.readDWord_writeDWord_same h.cellsWf hw]
  case ignored => rw [hostTurn_write_ok s v hloc, State.writeLoc_dWord_unimplemented (not_lt.2 hw)]
  case zero => rw [hostTurn_read_ok s hloc, State.readLoc, State.readDWord, if_neg (not_lt.2 hw)]

end Sys2Proof.Machine
end

section
/-! Encoder, decoder and opcode table, joined by the fields of a word: its fixed fields say which row of R84 it may be
of, its other fields are the operands (R81 to R87). -/

namespace Sys2Proof

theorem regField_eq_iff {w : Word} {lo : Nat} {r : Reg} : regField w lo = r ↔ w.toNat / 2 ^ lo % 8 = r.val := by
  simp [regField, bits, Fin.ext_iff]

theorem toNat_widthField (w : Word) : (widthField w).toNat = bits w 11 0 := by
  simp [widthField, bits]

theorem widthField_eq_iff {w : Word} {width : BitVec 12} : widthField w = width ↔ bits w 11 0 = width.toNat := by
  rw [← BitVec.toNat_inj, toNat_widthField]

theorem widthField_eq_zero_iff {w : Word} : widthField w = 0#12 ↔ bits w 11 0 = 0 := widthField_eq_iff

/-- R81, R84: OPC is the command's, and the fields the command does not use are 0. -/
def FixedFields (w : Word) : Instr → Prop
  | .egcd _ _ _ _ _ => bits w 31 24 = 0x01 ∧ bits w 8 0 = 0
  | .coprime _ _ => bits w 31 24 = 0x02 ∧ bits w 23 15 = 0 ∧ bits w 8 0 = 0
  | .modinv _ _ _ => bits w 31 24 = 0x03 ∧ bits w 20 15 = 0 ∧ bits w 8 0 = 0
  | .modexp _ _ _ _ => bits w 31 24 = 0x04 ∧ bits w 20 15 = 0 ∧ bits w 5 0 = 0
  | .denc _ _ => bits w 31 24 = 0x10 ∧ bits w 23 15 = 0
  | .ddec _ _ => bits w 31 24 = 0x11 ∧ bits w 20 12 = 0

/-- R81, R84: the command of the same row whose operands are the fields of `w`. -/
def withOperands (w : Word) : Instr → Instr
  | .egcd _ _ _ _ _ => .egcd (regField w 21) (regField w 18) (regField w 15) (regField w 12) (regField w 9)
  | .coprime _ _ => .coprime (regField w 12) (regField w 9)
  | .modinv _ _ _ => .modinv (regField w 21) (regField w 12) (regField w 9)
  | .modexp _ _ _ _ => .modexp (regField w 21) (regField w 12) (regField w 9) (regField w 6)
  | .denc _ _ => .denc (regField w 12) (widthField w)
  | .ddec _ _ => .ddec (regField w 21) (widthField w)

/-! The encoder -/

/-- R81, R84: the command's word is the only one with its fixed fields and its operands: linear arithmetic in the
quotients of the word by the powers of 2 that its fields stand at. -/
theorem encode_eq_iff (w : Word) (i : Instr) : encode i = w ↔ FixedFields w i ∧ withOperands w i = i := by
  have hw := w.isLt
  rw [← BitVec.toNat_inj]
  cases i <;> simp only [encode, formatR, formatD, BitVec.toNat_ofNat, FixedFields, withOperands, Instr.egcd.injEq,
    Instr.coprime.injEq, Instr.modinv.injEq, Instr.modexp.injEq, Instr.denc.injEq, Instr.ddec.injEq, regField_eq_iff,
    widthField_eq_iff, bits]
  all_goals omega

/-! The decoder -/

/-- R85: a word with a row's fixed fields decodes to the row's command with the word's operands, if that is well
formed. -/
theorem decode_of_fixedFields {w : Word} {i : Instr} (h : FixedFields w i)
    (hwf : (withOperands w i).wellFormed = true) : decode w = .ok (withOperands w i) := by
  cases i with
  | egcd rd rx ry ra rb =>
    obtain ⟨hopc, hlow⟩ := h
    have hne : regField w 21 ≠ regField w 18 ∧ regField w 21 ≠ regField w 15 ∧ regField w 18 ≠ regField w 15 := by
      simpa [withOperands, Instr.wellFormed, and_assoc] using hwf
    simp [decode, decodeEgcd, hopc, hlow, hne, withOperands]
  | coprime ra rb =>
    obtain ⟨hopc, hhigh, hlow⟩ := h
    simp [decode, decodeCoprime, hopc, hhigh, hlow, withOperands]
  | modinv rd ra rb =>
    obtain ⟨hopc, hhigh, hlow⟩ := h
    simp [decode, decodeModinv, hopc, hhigh, hlow, withOperands]
  | modexp rd ra rb rc =>
    obtain ⟨hopc, hhigh, hlow⟩ := h
    simp [decode, decodeModexp, hopc, hhigh, hlow, withOperands]
  | denc ra width =>
    obtain ⟨hopc, hzero⟩ := h
    have hwidth : bits w 11 0 ≠ 0 := by simpa [withOperands, Instr.wellFormed, widthField_eq_zero_iff] using hwf
    simp [decode, decodeDenc, hopc, hzero, hwidth, withOperands]
  | ddec rd width =>
    obtain ⟨hopc, hzero⟩ := h
    have hwidth : bits w 11 0 ≠ 0 := by simpa [withOperands, Instr.wellFormed, widthField_eq_zero_iff] using hwf
    simp [decode, decodeDdec, hopc, hzero, hwidth, withOperands]

/-- R85: what a word decodes to is well formed, and has the word's fixed fields and operands. -/
theorem fields_of_decode {w : Word} {i : Instr} (h : decode w = .ok i) :
    i.wellFormed = true ∧ FixedFields w i ∧ withOperands w i = i := by
  simp only [decode] at h
  split_ifs at h with hegcd hcoprime hmodinv hmodexp hdenc hddec
  · unfold decodeEgcd at h
    split_ifs at h with hlow hne
    cases h
    exact ⟨by simpa [Instr.wellFormed, and_assoc] using hne, ⟨hegcd, not_ne_iff.1 hlow⟩, rfl⟩
  · unfold decodeCoprime at h
    split_ifs at h with hzero
    cases h
    exact ⟨rfl, ⟨hcoprime, by simpa using hzero⟩, rfl⟩
  · unfold decodeModinv at h
    split_ifs at h with hzero
    cases h
    exact ⟨rfl, ⟨hmodinv, by simpa using hzero⟩, rfl⟩
  · unfold decodeModexp at h
    split_ifs at h with hzero
    cases h
    exact ⟨rfl, ⟨hmodexp, by simpa using hzero⟩, rfl⟩
  · unfold decodeDenc at h
    split_ifs at h with hzero hwidth
    cases h
    exact ⟨by simpa [Instr.wellFormed, widthField_eq_zero_iff] using hwidth, ⟨hdenc, not_ne_iff.1 hzero⟩, rfl⟩
  · unfold decodeDdec at h
    split_ifs at h with hzero hwidth
    cases h
    exact ⟨by simpa [Instr.wellFormed, widthField_eq_zero_iff] using hwidth, ⟨hddec, not_ne_iff.1 hzero⟩, rfl⟩

/-- Settles O1: the word of a command has the command's fixed fields and operands, and decodes by them. -/
theorem decodeOfEncode : Obligations.DecodeOfEncode := by
  unfold Obligations.DecodeOfEncode
  intro i hwf
  obtain ⟨hfixed, hops⟩ := (encode_eq_iff (encode i) i).1 rfl
  rw [decode_of_fixedFields hfixed (hops.symm ▸ hwf), hops]

/-- Settles O2: a word that decodes has the command's fixed fields and operands, and only the command's word has
them. -/
theorem encodeOfDecode : Obligations.EncodeOfDecode := by
  unfold Obligations.EncodeOfDecode
  intro w i h
  obtain ⟨hwf, hfields⟩ := fields_of_decode h
  exact ⟨hwf, (encode_eq_iff w i).2 hfields⟩

/-! The opcode table -/

/-- A mask that covers the bits `hi` down to `lo`, and `rest` below them, keeps that field and what `rest` keeps. -/
theorem and_fieldMask (w : Word) (hi lo rest : Nat) {kept : Nat} (h : rest < 2 ^ lo) (hrest : w.toNat &&& rest = kept) :
    w.toNat &&& (2 ^ lo * (2 ^ (hi - lo + 1) - 1) + rest) = 2 ^ lo * bits w hi lo + kept := by
  have hdiv : (2 ^ lo * (2 ^ (hi - lo + 1) - 1) + rest) / 2 ^ lo = 2 ^ (hi - lo + 1) - 1 := by
    rw [Nat.mul_add_div (Nat.two_pow_pos lo), Nat.div_eq_of_lt h, Nat.add_zero]
  have hlow : (w.toNat &&& rest) < 2 ^ lo := Nat.and_lt_two_pow _ h
  rw [← Nat.div_add_mod (w.toNat &&& _) (2 ^ lo), Nat.and_div_two_pow, Nat.and_mod_two_pow, hdiv,
    Nat.and_two_pow_sub_one_eq_mod, Nat.mul_add_mod, ← Nat.and_mod_two_pow, Nat.mod_eq_of_lt hlow, hrest]
  rfl

/-- R84: the fields that a row's mask covers, each at its place. -/
def maskedFields (w : Word) : Instr → Nat
  | .egcd _ _ _ _ _ => 2 ^ 24 * bits w 31 24 + bits w 8 0
  | .coprime _ _ => 2 ^ 24 * bits w 31 24 + (2 ^ 15 * bits w 23 15 + bits w 8 0)
  | .modinv _ _ _ => 2 ^ 24 * bits w 31 24 + (2 ^ 15 * bits w 20 15 + bits w 8 0)
  | .modexp _ _ _ _ => 2 ^ 24 * bits w 31 24 + (2 ^ 15 * bits w 20 15 + bits w 5 0)
  | .denc _ _ => 2 ^ 24 * bits w 31 24 + 2 ^ 15 * bits w 23 15
  | .ddec _ _ => 2 ^ 24 * bits w 31 24 + 2 ^ 12 * bits w 20 12

theorem and_mask (w : Word) (i : Instr) : w.toNat &&& (opcodeRow i).mask.toNat = maskedFields w i := by
  have low (hi : Nat) : w.toNat &&& (2 ^ (hi + 1) - 1) = bits w hi 0 := by
    simp [bits, Nat.and_two_pow_sub_one_eq_mod]
  cases i with
  | egcd rd rx ry ra rb => exact and_fieldMask w 31 24 0x1FF (by decide) (low 8)
  | coprime ra rb =>
    exact and_fieldMask w 31 24 0xFF81FF (by decide) (and_fieldMask w 23 15 0x1FF (by decide) (low 8))
  | modinv rd ra rb =>
    exact and_fieldMask w 31 24 0x1F81FF (by decide) (and_fieldMask w 20 15 0x1FF (by decide) (low 8))
  | modexp rd ra rb rc =>
    exact and_fieldMask w 31 24 0x1F803F (by decide) (and_fieldMask w 20 15 0x3F (by decide) (low 5))
  | denc ra width =>
    exact and_fieldMask w 31 24 0xFF8000 (by decide) (and_fieldMask w 23 15 0 (by decide) (Nat.and_zero _))
  | ddec rd width =>
    exact and_fieldMask w 31 24 0x1FF000 (by decide) (and_fieldMask w 20 12 0 (by decide) (Nat.and_zero _))

/-- R84: the word matches the row's mask and value exactly when it has the row's fixed fields. -/
theorem matchesWord_iff_fixedFields (w : Word) (i : Instr) :
    (opcodeRow i).matchesWord w = true ↔ FixedFields w i := by
  rw [OpcodeRow.matchesWord, beq_iff_eq, ← BitVec.toNat_inj, BitVec.toNat_and, and_mask]
  cases i <;> simp only [opcodeRow, maskedFields, FixedFields, BitVec.reduceToNat, bits]
  all_goals omega

/-- R84: a row's extra constraint on a word says that the row's command with the word's operands is well formed. -/
theorem extra_eq_wellFormed (w : Word) (i : Instr) : (opcodeRow i).extra w = (withOperands w i).wellFormed := by
  rw [Bool.eq_iff_iff]
  cases i <;> simp [OpcodeRow.extra, opcodeRow, withOperands, Instr.wellFormed, widthField_eq_zero_iff]

theorem opcodeRow_withOperands (w : Word) (i : Instr) : opcodeRow (withOperands w i) = opcodeRow i := by
  cases i <;> rfl

theorem exists_opcodeRow_of_mem {r : OpcodeRow} (h : r ∈ opcodeRows) : ∃ i, opcodeRow i = r := by
  simp only [opcodeRows, List.mem_cons, List.not_mem_nil, or_false] at h
  rcases h with h | h | h | h | h | h <;> exact ⟨_, h.symm⟩

/-- Settles O3: a row's mask and value fix its fields, and its extra constraint says that the operands are well
formed. -/
theorem decoderMatchesOpcodeTable : Obligations.DecoderMatchesOpcodeTable := by
  unfold Obligations.DecoderMatchesOpcodeTable
  intro w r hr
  obtain ⟨row, rfl⟩ := exists_opcodeRow_of_mem hr
  constructor
  · rintro ⟨i, hdecode, hi⟩
    obtain ⟨hwf, hfixed, hops⟩ := fields_of_decode hdecode
    rw [← hi, matchesWord_iff_fixedFields, extra_eq_wellFormed, hops]
    exact ⟨hfixed, hwf⟩
  · rintro ⟨hmatch, hextra⟩
    rw [matchesWord_iff_fixedFields] at hmatch
    rw [extra_eq_wellFormed] at hextra
    exact ⟨_, decode_of_fixedFields hmatch hextra, opcodeRow_withOperands w row⟩

/-- Settles O4, word by word. -/
theorem specExampleWordsDecode : Obligations.SpecExampleWordsDecode := by
  unfold Obligations.SpecExampleWordsDecode
  decide

end Sys2Proof
end

section
/-! An illegal word: issued like any other, and then the fault ILLEGAL (R87, R101, R191). -/

namespace Sys2Proof.Machine

/-- R101: a write to CMD issues the word when no command is in progress and no fault is pending. -/
theorem hostTurn_issue {s : State} (hb : s.busy = false) (he : s.err = false) (v : Word) :
    hostTurn (.write 0x0000 4 v) s = .next (s.issue v) := by
  rw [hostTurn_write_ok s v portLoc_cmd]
  exact congrArg _ (if_neg (by simp [hb, he]))

/-- Settles O9: the commit of the issued word is the fault ILLEGAL, which leaves CMDREG. -/
theorem illegalWordIssuesThenFaults : Obligations.IllegalWordIssuesThenFaults := by
  unfold Obligations.IllegalWordIssuesThenFaults
  intro s v why hb he hd
  have hcommit : engineTurn (s.issue v) = .next ((s.issue v).takeFault .illegal) :=
    (engineTurn_busy rfl).trans (commitCmd_of_illegal hd)
  refine ⟨s.issue v, hostTurn_issue hb he v, rfl, ?faults, fun u hu => ?readsBack⟩
  case faults =>
    rw [hcommit, State.takeFault, State.issue, hb]
  case readsBack =>
    obtain rfl : (s.issue v).takeFault .illegal = u := by simpa using hcommit.symm.trans hu
    exact hostTurn_read_ok _ portLoc_cmd

end Sys2Proof.Machine
end

section
/-! LOADN and READN: a register word by word through the N window (R57, R89). -/

namespace Sys2Proof.Machine

/-- A procedure goes on with the result of its first part. -/
theorem bind_ok {α β : Type} {x : HostM α} {s t : State} {a : α} (f : α → HostM β) (h : x s = .ok a t) :
    (x >>= f) s = f a t := by
  simp only [bind, EStateM.bind, h]

/-! The words of a register -/

/-- R51: a word of 32·n bits is its n words of 32 bits. -/
theorem eq_of_wordAt_eq {u u' n : Nat} (hu : u < 2 ^ (32 * n)) (hu' : u' < 2 ^ (32 * n))
    (h : ∀ j, j < n → wordAt u j = wordAt u' j) : u = u' := by
  apply Nat.eq_of_testBit_eq
  intro k
  by_cases hk : k < 32 * n
  · have hbit : ∀ u, (wordAt u (k / 32)).getLsbD (k % 32) = u.testBit k := fun u => by
      rw [getLsbD_wordAt _ _ _ (Nat.mod_lt k (by norm_num)), Nat.div_add_mod]
    rw [← hbit u, ← hbit u', h (k / 32) (by omega)]
  · have hpow : 2 ^ (32 * n) ≤ 2 ^ k := Nat.pow_le_pow_right (by norm_num) (not_lt.1 hk)
    rw [Nat.testBit_lt_two_pow (hu.trans_le hpow), Nat.testBit_lt_two_pow (hu'.trans_le hpow)]

/-- R51: the number that the n low words of `u` spell. -/
theorem sum_wordAt (u n : Nat) :
    ((List.range n).map fun j => (wordAt u j).toNat * 2 ^ (32 * j)).sum = u % 2 ^ (32 * n) := by
  induction n with
  | zero => simp [Nat.mod_one]
  | succ n ih =>
    rw [List.range_succ, List.map_append, List.sum_append, ih, List.map_singleton, List.sum_singleton, toNat_wordAt,
      Nat.mul_succ, Nat.pow_add, Nat.mod_mul, Nat.mul_comm (2 ^ (32 * n))]

namespace State

@[simp] theorem writeNWord_cfg (s : State) (i : Reg) (j : Nat) (v : Word) : (s.writeNWord i j v).cfg = s.cfg := rfl

theorem setN_setN (s : State) (r : Reg) (v v' : Int) : (s.setN r v).setN r v' = s.setN r v' := by
  simp [setN]

theorem setN_getN (s : State) (r : Reg) : s.setN r (s.getN r) = s := by
  simp [setN, getN]

namespace Inv

variable {s : State}

/-- R8: the implemented words of a register make up its width. -/
theorem xlen_eq (h : s.Inv) : s.cfg.xlen = 32 * s.cfg.nWords := by
  obtain ⟨⟨h32, -⟩, -⟩ := h.legal
  unfold Config.nWords
  omega

/-- R11: a register is the signed value of its two's complement word. -/
theorem signed_sext_of_inRange (h : s.Inv) {v : Int} (hlo : s.cfg.minN ≤ v) (hhi : v ≤ s.cfg.maxN) :
    signed s.cfg.xlen (sext s.cfg.xlen v) = v := by
  obtain ⟨⟨-, hx, -⟩, -⟩ := h.legal
  exact signed_sext (by omega) hlo (Int.lt_of_le_sub_one hhi)

/-- R51: registers whose words read alike hold the same value. -/
theorem eq_of_wordAt_sext_eq (h : s.Inv) {v v' : Int} (hv : s.cfg.minN ≤ v ∧ v ≤ s.cfg.maxN)
    (hv' : s.cfg.minN ≤ v' ∧ v' ≤ s.cfg.maxN)
    (heq : ∀ j, j < s.cfg.nWords → wordAt (sext s.cfg.xlen v) j = wordAt (sext s.cfg.xlen v') j) : v = v' := by
  have hlt : ∀ v, sext s.cfg.xlen v < 2 ^ (32 * s.cfg.nWords) := fun v => h.xlen_eq ▸ sext_lt _ v
  rw [← h.signed_sext_of_inRange hv.1 hv.2, ← h.signed_sext_of_inRange hv'.1 hv'.2,
    eq_of_wordAt_eq (hlt v) (hlt v') heq]

end Inv
end State

/-! LOADN -/

/-- R57: a write of an implemented word of a register, while the engine is idle. -/
theorem writeReg_nWord {s : State} (h : s.Inv) (hb : s.busy = false) (i : Reg) {j : Nat} (hj : j < s.cfg.nWords)
    (v : Word) : writeReg (nWordAddr i j) v s = .ok () (s.writeNWord i j v) := by
  rw [writeReg_ok v s (portLoc_nWordAddr i j (hj.trans_le (State.nWords_le h.legal))),
    State.writeLoc_nWord_of_idle hb i hj]

/-- R57: the writes of the words `js` of `u` set one register, whose words in `js` are then those of `u`, and keep its
other words. -/
theorem loadWords_ok {s : State} (h : s.Inv) (hb : s.busy = false) (i : Reg) (u : Nat) {js : List Nat}
    (hjs : ∀ j ∈ js, j < s.cfg.nWords) :
    ∃ v, loadWords i u js s = .ok () (s.setN i v) ∧ (s.setN i v).Inv ∧
      ∀ j, j < s.cfg.nWords →
        wordAt (sext s.cfg.xlen v) j = if j ∈ js then wordAt u j else wordAt (sext s.cfg.xlen (s.getN i)) j := by
  induction js generalizing s with
  | nil => exact ⟨s.getN i, by rw [State.setN_getN]; rfl, (State.setN_getN s i).symm ▸ h, fun j _ => by simp⟩
  | cons k js ih =>
    obtain ⟨hk, hjs⟩ := List.forall_mem_cons.1 hjs
    obtain ⟨v, hload, hinv, hwords⟩ := ih (h.writeNWord i hk (wordAt u k)) hb hjs
    refine ⟨v, ?_, ?_, fun j hj => ?_⟩
    · rw [loadWords, bind_ok _ (writeReg_nWord h hb i hk _), hload, State.writeNWord, State.setN_setN]
    · rwa [State.writeNWord, State.setN_setN] at hinv
    · have hput := h.sext_getN_writeNWord i hk (wordAt u k)
      refine (hwords j hj).trans ?_
      rw [State.writeNWord_cfg, hput]
      by_cases hjk : j = k
      · subst hjk
        simp [wordAt_putWord_same]
      · simp [hjk, wordAt_putWord_other hjk]

/-! READN -/

theorem readReg_nWord {s : State} (h : s.Inv) (i : Reg) {j : Nat} (hj : j < s.cfg.nWords) :
    readReg (nWordAddr i j) s =
      .ok (wordAt (sext s.cfg.xlen (s.getN i)) j) { s with hostData := s.readNWord i j } := by
  rw [readReg_ok s (portLoc_nWordAddr i j (hj.trans_le (State.nWords_le h.legal))), State.readLoc, State.readNWord,
    if_pos hj]

/-- R57: the reads of the words `js` of a register give the number that they spell. -/
theorem fetchWords_ok {s : State} (h : s.Inv) (i : Reg) {js : List Nat} (hjs : ∀ j ∈ js, j < s.cfg.nWords) :
    ∃ d, fetchWords i js s =
      .ok (js.map fun j => (wordAt (sext s.cfg.xlen (s.getN i)) j).toNat * 2 ^ (32 * j)).sum
        { s with hostData := d } := by
  induction js generalizing s with
  | nil => exact ⟨s.hostData, rfl⟩
  | cons k js ih =>
    obtain ⟨hk, hjs⟩ := List.forall_mem_cons.1 hjs
    obtain ⟨d, hfetch⟩ := ih (h.setHostData (s.readNWord i k)) hjs
    refine ⟨d, ?_⟩
    rw [fetchWords, bind_ok _ (readReg_nWord h i hk), bind_ok _ hfetch]
    rfl

/-- Settles O51: LOADN makes every word of the register the value's, READN spells the value from all of them. -/
theorem loadAndFetchRegister : Obligations.LoadAndFetchRegister := by
  unfold Obligations.LoadAndFetchRegister
  refine fun s i h => ⟨fun v hb hlo hhi => ?load, ?fetch⟩
  case load =>
    obtain ⟨v', hload, hinv, hwords⟩ := loadWords_ok h hb i (sext s.cfg.xlen v) (fun j hj => List.mem_range.1 hj)
    have hv' := hinv.inRange i
    rw [State.getN_setN_same] at hv'
    obtain rfl : v' = v := h.eq_of_wordAt_sext_eq hv' ⟨hlo, hhi⟩ fun j hj => by
      rw [hwords j hj, if_pos (List.mem_range.2 hj)]
    rw [loadN, get_bind, if_neg (by omega)]
    exact hload
  case fetch =>
    obtain ⟨d, hfetch⟩ := fetchWords_ok h i (js := List.range s.cfg.nWords) fun j hj => List.mem_range.1 hj
    rw [sum_wordAt, ← h.xlen_eq, Nat.mod_eq_of_lt (sext_lt _ _)] at hfetch
    refine ⟨d, ?_⟩
    obtain ⟨hlo, hhi⟩ := h.inRange i
    rw [fetchN, get_bind, bind_ok _ hfetch, h.signed_sext_of_inRange hlo hhi]
    rfl

end Sys2Proof.Machine
end

section
/-! The life of a command: issue, the turn of the engine, the commit that completes or faults, and the idle engine at
the end of an agenda (R101 to R105). -/

namespace Sys2Proof.Machine

/-! Issue -/

/-- R60, R101: a write to CMD is rejected while a command is in progress or a fault is pending. -/
theorem hostTurn_cmd_rejected {s : State} (h : s.busy = true ∨ s.err = true) (v : Word) :
    hostTurn (.write 0x0000 4 v) s = .next s.reject := by
  have hrej : s.rejectsLoc .cmd := h
  rw [hostTurn_write_ok s v portLoc_cmd, State.writeLoc_of_rejectsLoc hrej]

/-- Settles O6: the write to CMD is the issue of the word, or rejected. -/
theorem issueOrReject : Obligations.IssueOrReject := by
  unfold Obligations.IssueOrReject
  exact fun s v => ⟨fun ⟨hb, he⟩ => hostTurn_issue hb he v, fun h => hostTurn_cmd_rejected h v⟩

/-! The turn that comes next -/

theorem nextTurn_of_nil {s : State} (h : s.agenda = []) : nextTurn s = .engine := by
  rw [nextTurn, h, List.headD_nil]

theorem nextTurn_of_cons {s : State} {t : Turn} {rest : List Turn} (h : s.agenda = t :: rest) : nextTurn s = t := by
  rw [nextTurn, h, List.headD_cons]

theorem step_of_host {s : State} {a : HostAccess} (h : nextTurn s = .host a) : step s = hostTurn a s.popTurn := by
  rw [step, h, takeTurn]

theorem step_of_engine {s : State} (h : nextTurn s = .engine) : step s = engineTurn s.popTurn := by
  rw [step, h, takeTurn]

theorem step_of_reset {s : State} (h : nextTurn s = .reset) : step s = .next s.popTurn.resetBlock := by
  rw [step, h, takeTurn]

theorem step_of_engine_busy {s : State} (h : nextTurn s = .engine) (hb : s.busy = true) :
    step s = commitCmd s.popTurn := by
  rw [step_of_engine h]
  exact engineTurn_busy hb

/-- Settles O5: the step is the operation of the turn that comes next, and the engine's is the commit of CMDREG. -/
theorem stepRunsDecodedCommand : Obligations.StepRunsDecodedCommand := by
  unfold Obligations.StepRunsDecodedCommand
  intro s
  refine ⟨rfl, nextTurn_of_nil, fun _ _ => nextTurn_of_cons, fun _ => step_of_host, step_of_reset,
    fun hn hb => ⟨fun i hd => ?legal, fun why hd => ?illegal⟩, fun hn hb => ?idle⟩
  case legal =>
    rw [step_of_engine_busy hn hb]
    exact commitCmd_of_decode hd
  case illegal =>
    rw [step_of_engine_busy hn hb]
    exact commitCmd_of_illegal hd
  case idle =>
    rw [step_of_engine hn]
    exact engineTurn_idle hb

/-! The commit -/

/-- Settles O7: the engine always has its turn, and with a command in progress its turn is a commit. -/
theorem commitCompletesOrFaults : Obligations.CommitCompletesOrFaults := by
  unfold Obligations.CommitCompletesOrFaults
  intro s hb
  obtain ⟨t, ht⟩ := engineTurn_next s
  exact ⟨t, ht, engineTurn_commitStatus hb ht⟩

/-- R104: a commit that sets ERR takes a fault, which is all it does. -/
theorem commitCmd_faulted {s t : State} (he : s.err = false) (h : commitCmd s = .next t) (ht : t.err = true) :
    ∃ c, t = s.takeFault c := by
  cases hd : decode s.cmdreg with
  | error why => exact ⟨.illegal, by simpa using h.symm.trans (commitCmd_of_illegal hd)⟩
  | ok i =>
    rw [commitCmd_of_decode hd] at h
    rcases exec_outcome h with ⟨c, -, hc⟩ | ⟨-, rfl⟩
    · exact ⟨c, hc⟩
    · simp [he] at ht

/-- Settles O8: a fault touches BUSY, ERR and ERRCODE only. -/
theorem faultLeavesNoPartialResult : Obligations.FaultLeavesNoPartialResult := by
  unfold Obligations.FaultLeavesNoPartialResult
  intro s t he h ht
  obtain ⟨c, rfl⟩ := commitCmd_faulted he h ht
  exact ⟨fun _ => rfl, fun _ => rfl, rfl, rfl, c, rfl⟩

/-! The agenda -/

/-- R50, R206: a turn that exists has a next state. -/
theorem step_next_of_expressible {s : State} (h : (nextTurn s).expressible = true) : ∃ t, step s = .next t := by
  cases hn : nextTurn s with
  | host a =>
    rw [hn] at h
    have hnot : ¬∃ r, hostTurn a s.popTurn = .refused r := by
      rw [portRefusesExactly a s.popTurn]
      exact (Bool.eq_false_iff.1 · h)
    rw [step_of_host hn]
    cases ha : hostTurn a s.popTurn with
    | next t => exact ⟨t, rfl⟩
    | fault r => cases r
    | refused r => exact absurd ⟨r, ha⟩ hnot
  | engine =>
    rw [step_of_engine hn]
    exact engineTurn_next s.popTurn
  | reset => exact ⟨_, step_of_reset hn⟩

theorem hostTurn_agenda {a : HostAccess} {s t : State} (h : hostTurn a s = .next t) : t.agenda = s.agenda := by
  rcases hostTurn_cases h with ⟨_, _, loc, _, _, rfl⟩ | ⟨_, _, v, loc, _, _, rfl⟩
  · rfl
  · exact State.writeLoc_elim (P := fun u => u.agenda = s.agenda) (ignored := rfl) (rejected := rfl)
      (issued := fun _ _ => rfl) (status := by rw [writeStatus_eq]) (inten := rfl) (pointer := rfl) (reset := rfl)
      (register := fun _ _ _ => rfl) (cells := fun _ _ => rfl) loc

/-- After the engine's turn nothing is in progress, and the turns to come are as before. -/
theorem engineTurn_idle_agenda {s t : State} (h : engineTurn s = .next t) : t.busy = false ∧ t.agenda = s.agenda := by
  cases hb : s.busy with
  | false =>
    obtain rfl : s = t := by simpa using (engineTurn_idle hb).symm.trans h
    exact ⟨hb, rfl⟩
  | true =>
    obtain ⟨⟨hidle, -⟩, -, -, -, -, -, hagenda, -⟩ := engineTurn_commitStatus hb h
    exact ⟨hidle, hagenda⟩

/-- No turn changes the turns after it. -/
theorem step_agenda {s t : State} (h : step s = .next t) : t.agenda = s.agenda.tail := by
  rcases step_cases h with ⟨a, -, ha⟩ | ⟨-, he⟩ | ⟨-, rfl⟩
  · exact hostTurn_agenda ha
  · exact (engineTurn_idle_agenda he).2
  · rfl

/-- A run of `k + 1` steps is its first step and a run of `k` steps. -/
theorem run_succ_of_step {M : Host.Core} {s t : M.State} (h : M.step s = .next t) (k : Nat) :
    M.run (k + 1) s = M.run k t := by
  rw [Host.Core.run, h]

/-- Settles O11: each turn of the agenda is one step, and the step after them is the engine's. -/
theorem engineIsIdleAfterTheAgenda : Obligations.EngineIsIdleAfterTheAgenda := by
  unfold Obligations.EngineIsIdleAfterTheAgenda
  intro s hexpr
  induction hagenda : s.agenda generalizing s with
  | nil =>
    have hn := nextTurn_of_nil hagenda
    obtain ⟨t, ht⟩ := engineTurn_next s.popTurn
    have hstep : step s = .next t := (step_of_engine hn).trans ht
    refine ⟨t, run_succ_of_step hstep 0, (engineTurn_idle_agenda ht).1, ?_⟩
    rw [step_agenda hstep, hagenda, List.tail_nil]
  | cons turn rest ih =>
    rw [hagenda, List.forall_mem_cons] at hexpr
    obtain ⟨hturn, hrest⟩ := hexpr
    obtain ⟨u, hu⟩ := step_next_of_expressible (s := s) (by rwa [nextTurn_of_cons hagenda])
    have hua : u.agenda = rest := by rw [step_agenda hu, hagenda, List.tail_cons]
    rw [List.length_cons, run_succ_of_step (M := core) hu]
    exact ih u (by rwa [hua]) hua

end Sys2Proof.Machine
end

section
/-! The operands on which EGCD faults (R123 (a)): a gcd above MAXN is the magnitude of MINN, which only MINN has. -/

namespace Sys2Proof.Machine

/-- A gcd reaches the bound `M` of its arguments only where one of them is `M` and the other `M` or 0. -/
theorem le_gcd_iff_of_le {A B M : Nat} (hM : 0 < M) (hA : A ≤ M) (hB : B ≤ M) :
    M ≤ Nat.gcd A B ↔ (A = M ∧ B = M) ∨ (A = M ∧ B = 0) ∨ (A = 0 ∧ B = M) := by
  have eq_of_pos : ∀ {C}, C ≤ M → Nat.gcd A B ∣ C → M ≤ Nat.gcd A B → C = 0 ∨ C = M := fun hC hdvd hle =>
    (Nat.eq_zero_or_pos _).imp_right fun hpos => le_antisymm hC (hle.trans (Nat.le_of_dvd hpos hdvd))
  constructor
  · intro hle
    rcases eq_of_pos hA (Nat.gcd_dvd_left A B) hle with rfl | rfl <;>
      rcases eq_of_pos hB (Nat.gcd_dvd_right _ B) hle with rfl | rfl
    · exact absurd hle (by simp [hM.ne'])
    · simp
    · simp
    · simp
  · rintro (⟨rfl, rfl⟩ | ⟨rfl, rfl⟩ | ⟨rfl, rfl⟩) <;> simp

/-- The values of a register: their magnitude is at most that of MINN, and only MINN reaches it. -/
theorem natAbs_le_iff_minN {c : Config} {v : Int} (h : c.minN ≤ v ∧ v ≤ c.maxN) :
    v.natAbs ≤ 2 ^ (c.xlen - 1) ∧ (v.natAbs = 2 ^ (c.xlen - 1) ↔ v = c.minN) := by
  unfold Config.minN Config.maxN at *
  omega

/-- R123 (a): the operand pairs whose gcd no register holds. -/
theorem State.Inv.maxN_lt_gcd_iff {s : State} (h : s.Inv) (ra rb : Reg) :
    s.cfg.maxN < (xgcd (s.getN ra) (s.getN rb)).g ↔
      (s.getN ra = s.cfg.minN ∧ s.getN rb = s.cfg.minN) ∨ (s.getN ra = s.cfg.minN ∧ s.getN rb = 0) ∨
        (s.getN ra = 0 ∧ s.getN rb = s.cfg.minN) := by
  obtain ⟨hale, haeq⟩ := natAbs_le_iff_minN (h.inRange ra)
  obtain ⟨hble, hbeq⟩ := natAbs_le_iff_minN (h.inRange rb)
  rw [← haeq, ← hbeq, ← Int.natAbs_eq_zero (a := s.getN ra), ← Int.natAbs_eq_zero (a := s.getN rb),
    ← le_gcd_iff_of_le (Nat.two_pow_pos _) hale hble, xgcd_g_eq, Config.maxN, Int.sub_one_lt_iff, Int.ofNat_le]

/-- In a state with DONE and ERR exclusive (R20), the state a command completes in is none that a fault leaves. -/
theorem State.Inv.complete_ne_takeFault {s : State} (h : s.Inv) (i : Instr) (c : FaultCode) :
    (assigned s i).complete ≠ s.takeFault c := by
  intro heq
  have hdone : s.done = true := (congrArg State.done heq).symm
  have herr : s.err = true := (err_assigned s i).symm.trans (congrArg State.err heq)
  rw [h.doneNotErr hdone] at herr
  cases herr

/-- So the fault a command takes can be read off the state after it. -/
theorem State.Inv.exec_eq_takeFault_iff {s : State} (h : s.Inv) (i : Instr) (c : FaultCode) :
    exec i s = .next (s.takeFault c) ↔ faultOf s i = some c := by
  refine ⟨fun hx => ?_, exec_of_fault⟩
  rcases exec_outcome hx with ⟨c', hf, heq⟩ | ⟨-, heq⟩
  · obtain rfl : c = c' := Option.some.inj (congrArg State.errcode heq)
    exact hf
  · exact absurd heq.symm (h.complete_ne_takeFault i c)

theorem faultOf_egcd_iff {rd rx ry ra rb : Reg} {s : State} :
    faultOf s (.egcd rd rx ry ra rb) = some .range ↔ s.cfg.maxN < (xgcd (s.getN ra) (s.getN rb)).g := by
  simp [faultOf]

/-- Settles O20: EGCD faults where the gcd is above MAXN, which it is for the three pairs only. -/
theorem egcdFaultsRangeExactly : Obligations.EgcdFaultsRangeExactly := by
  unfold Obligations.EgcdFaultsRangeExactly
  intro rd rx ry ra rb s h
  rw [h.exec_eq_takeFault_iff, faultOf_egcd_iff, h.maxN_lt_gcd_iff]

end Sys2Proof.Machine
end

section
/-! The triple of the reference recurrence (R120 to R122): Bézout's identity, the corner cases and the sign rule; and
the bounds of R123 (b) in the form that divides by the gcd. -/

namespace Sys2Proof.Machine

theorem mul_sgn_self (a : Int) : a * sgn a = a.natAbs := by
  unfold sgn
  split <;> omega

@[simp] theorem sgn_natCast (n : Nat) : sgn n = 1 := if_neg (Int.natCast_nonneg n).not_gt

/-- What every round of R122 keeps: each remainder is the combination of the magnitudes that its column gives. -/
structure Euclid.Combines (A B : Nat) (e : Euclid) : Prop where
  /-- `r0` from the coefficients `s0`, `t0`. -/
  first : A * e.s0 + B * e.t0 = e.r0
  /-- `r1` from the coefficients `s1`, `t1`. -/
  second : A * e.s1 + B * e.t1 = e.r1

theorem Euclid.Combines.round {A B : Nat} {e : Euclid} (h : e.Combines A B) : (euclidRound e).Combines A B := by
  refine ⟨h.second, ?_⟩
  have hmod : ((e.r0 % e.r1 : Nat) : Int) = e.r0 - e.r1 * (e.r0 / e.r1 : Nat) := by
    rw [Int.natCast_mod, Int.natCast_div, Int.emod_def]
  simp only [euclidRound, hmod]
  linear_combination h.first - ((e.r0 / e.r1 : Nat) : Int) * h.second

/-- R120: Bézout's identity. On the magnitudes it is the invariant of the rounds; the signs then cancel. -/
theorem xgcd_identity (a b : Int) : a * (xgcd a b).x + b * (xgcd a b).y = (xgcd a b).g := by
  have hstart : (euclidStart a.natAbs b.natAbs).Combines a.natAbs b.natAbs := by constructor <;> simp [euclidStart]
  have hend := (euclidLoop_induct _ (fun _ _ h => h.round) (b.natAbs + 1) _ hstart).first
  simpa only [xgcd, ← mul_assoc, mul_sgn_self] using hend

theorem euclidLoop_of_r1_eq_zero {e : Euclid} (h : e.r1 = 0) (fuel : Nat) : euclidLoop fuel e = e := by
  cases fuel with
  | zero => rfl
  | succ fuel => exact if_pos h

/-- R121: with second operand 0 there is no round. -/
theorem xgcd_zero_right (a : Int) : xgcd a 0 = ⟨a.natAbs, sgn a, 0⟩ := by
  simp [xgcd, euclidLoop_of_r1_eq_zero, euclidStart]

/-- R121: when the second operand divides the first, one round is the last. -/
theorem xgcd_of_dvd {a b : Int} (hb : b ≠ 0) (hdvd : b ∣ a) : xgcd a b = ⟨b.natAbs, 0, sgn b⟩ := by
  have hdone : (euclidRound (euclidStart a.natAbs b.natAbs)).r1 = 0 :=
    Nat.mod_eq_zero_of_dvd (Int.natAbs_dvd_natAbs.2 hdvd)
  have hloop : euclidLoop (b.natAbs + 1) (euclidStart a.natAbs b.natAbs) =
      euclidRound (euclidStart a.natAbs b.natAbs) :=
    (if_neg (Int.natAbs_ne_zero.2 hb)).trans (euclidLoop_of_r1_eq_zero hdone _)
  rw [xgcd, hloop]
  simp [euclidRound, euclidStart]

/-- R122: the recurrence sees the magnitudes only, and the signs go to the coefficients. -/
theorem xgcd_eq_of_natAbs (a b : Int) :
    xgcd a b =
      ⟨(xgcd a.natAbs b.natAbs).g, sgn a * (xgcd a.natAbs b.natAbs).x, sgn b * (xgcd a.natAbs b.natAbs).y⟩ := by
  simp only [xgcd, sgn_natCast, Int.natAbs_natCast, one_mul]

/-- Settles O16: the identity and the gcd are invariants of the rounds; a gcd is 0 only for 0 and 0. -/
theorem xgcdGivesBezout : Obligations.XgcdGivesBezout := by
  unfold Obligations.XgcdGivesBezout
  refine fun a b => ⟨xgcd_identity a b, xgcd_g_eq a b, xgcd_g_nonneg a b, ?_⟩
  rw [xgcd_g_eq, Int.natCast_eq_zero, Nat.gcd_eq_zero_iff, Int.natAbs_eq_zero, Int.natAbs_eq_zero]

/-- Settles O17: in each corner case the recurrence takes at most one round. -/
theorem xgcdCornerCasesAndSigns : Obligations.XgcdCornerCasesAndSigns := by
  unfold Obligations.XgcdCornerCasesAndSigns
  exact ⟨xgcd_zero_right 0, xgcd_zero_right, fun _ hb => xgcd_of_dvd hb (dvd_zero _),
    fun _ ha => xgcd_of_dvd ha dvd_rfl, xgcd_eq_of_natAbs⟩

/-- A coefficient `u` that is trivial, or at most half of `C / g`, in the two forms of R123 (b). -/
theorem le_max_div_of_half {g u C : Nat} (hg : 0 < g) (h : u ≤ 1 ∨ (0 < g ∧ 2 * g * u ≤ C)) :
    u ≤ max 1 (C / g) ∧ (2 ≤ C / g → 2 * g * u ≤ C) := by
  rcases h with hone | ⟨-, hhalf⟩
  · refine ⟨le_max_of_le_left hone, fun hC => ?_⟩
    calc 2 * g * u ≤ 2 * g * 1 := Nat.mul_le_mul_left _ hone
      _ ≤ C := by rw [mul_one]; exact (Nat.le_div_iff_mul_le hg).1 hC
  · refine ⟨le_max_of_le_right ((Nat.le_div_iff_mul_le hg).2 ?_), fun _ => hhalf⟩
    calc u * g ≤ 2 * (u * g) := Nat.le_mul_of_pos_left _ two_pos
      _ = 2 * g * u := by ring
      _ ≤ C := hhalf

/-- Settles O18: each column of the recurrence is bounded by the operand that it does not multiply. -/
theorem bezoutCoefficientsAreSmall : Obligations.BezoutCoefficientsAreSmall := by
  unfold Obligations.BezoutCoefficientsAreSmall
  intro a b hg
  have hg' : 0 < (xgcd a b).g.natAbs := Int.natAbs_pos.2 hg.ne'
  obtain ⟨hx, hx2⟩ := le_max_div_of_half hg' (xgcd_x_le a b)
  obtain ⟨hy, hy2⟩ := le_max_div_of_half hg' (xgcd_y_le a b)
  exact ⟨hx, hy, hx2, hy2⟩

end Sys2Proof.Machine
end

section
/-! How EGCD, COPRIME and MODINV end (R121, R124, R126): by `faultOf` and `assigned`, with the facts about `xgcd`. -/

namespace Sys2Proof.Machine

/-- Settles O19: the three writes go to different registers, and their values were read at issue. -/
theorem egcdCompletes : Obligations.EgcdCompletes := by
  unfold Obligations.EgcdCompletes
  intro rd rx ry ra rb s hdx hdy hxy hg
  rw [← xgcd_g_eq] at hg ⊢
  have hd : (assigned s (.egcd rd rx ry ra rb)).getN rd = (xgcd (s.getN ra) (s.getN rb)).g := by
    simp [assigned, State.getN_setN, hdx.symm, hdy.symm]
  have hx : (assigned s (.egcd rd rx ry ra rb)).getN rx = (xgcd (s.getN ra) (s.getN rb)).x := by
    simp [assigned, State.getN_setN, hxy.symm]
  have hy : (assigned s (.egcd rd rx ry ra rb)).getN ry = (xgcd (s.getN ra) (s.getN rb)).y := by
    simp [assigned]
  refine ⟨_, exec_of_noFault (if_neg hg.not_gt), rfl, rfl, rfl, hd, hx, hy, ?_⟩
  simp only [State.getN_complete, hd, hx, hy, xgcd_identity]

theorem xgcd_g_eq_one_iff (a b : Int) : (xgcd a b).g = 1 ↔ Nat.gcd a.natAbs b.natAbs = 1 := by
  rw [xgcd_g_eq, Nat.cast_eq_one]

/-- Settles O21: COPRIME has no fault, and assigns CP only. -/
theorem coprimeCompletes : Obligations.CoprimeCompletes := by
  unfold Obligations.CoprimeCompletes
  intro ra rb s
  rw [← decide_eq_decide.2 (xgcd_g_eq_one_iff (s.getN ra) (s.getN rb))]
  exact exec_of_noFault rfl

/-- R127: modulo `b`, the coefficient of `a` is the same in every Bézout pair. -/
theorem emod_eq_of_identity {a b x y x' y' : Int} (h : a * x + b * y = 1) (h' : a * x' + b * y' = 1) :
    x % b = x' % b :=
  Int.ModEq.symm (Int.modEq_iff_dvd.2 ⟨x * y' - x' * y, by linear_combination x' * h - x * h'⟩)

/-- R126: modulo `b`, the coefficient of `a` is an inverse of `a`. -/
theorem emod_mul_emod_of_identity {a b x y : Int} (h : a * x + b * y = 1) (hb : 1 < b) : x % b * a % b = 1 := by
  have hxa : x * a = 1 + b * -y := by linear_combination h
  calc x % b * a % b = x * a % b := (Int.mod_modEq x b).mul_right a
    _ = 1 := by rw [hxa, Int.add_mul_emod_self_left, Int.emod_eq_of_lt one_pos.le hb]

/-- Settles O22: Bézout's identity with gcd 1 makes the first coefficient, modulo `b`, the inverse. -/
theorem modinvCompletes : Obligations.ModinvCompletes := by
  unfold Obligations.ModinvCompletes
  intro rd ra rb s hb hgcd
  have hg := (xgcd_g_eq_one_iff _ _).2 hgcd
  have hid := (xgcd_identity (s.getN ra) (s.getN rb)).trans hg
  have hnoFault : faultOf s (.modinv rd ra rb) = none := by simp [faultOf, hb, hg]
  exact ⟨_, exec_of_noFault hnoFault, Int.emod_nonneg _ hb.ne', Int.emod_lt_of_pos _ hb,
    emod_mul_emod_of_identity hid, fun h1 => by rw [h1, Int.emod_one], fun _ _ => emod_eq_of_identity hid⟩

/-- Settles O23: the modulus is checked before the gcd. -/
theorem modinvFaults : Obligations.ModinvFaults := by
  unfold Obligations.ModinvFaults
  refine fun rd ra rb s => ⟨fun hb => exec_of_fault (if_pos hb), fun hb hgcd => exec_of_fault ?_⟩
  have hg := mt (xgcd_g_eq_one_iff _ _).1 hgcd
  simp [faultOf, hb, hg]

end Sys2Proof.Machine
end

section
/-! MODEXP (R140 to R145): how it ends, from `faultOf` and `assigned`; the laws of its function; and why the public and
the private exponent of a key undo each other. -/

namespace Sys2Proof.Machine

/-- R141: MODEXP on operands in its domain, given as naturals. -/
theorem exec_modexp_of_natCast {s : State} {ra rb rc : Reg} {b e n : Nat} (rd : Reg) (hb : s.getN ra = b)
    (he : s.getN rb = e) (hn : s.getN rc = n) (hpos : 0 < n) :
    exec (.modexp rd ra rb rc) s = .next (s.setN rd ((b ^ e % n : Nat) : Int)).complete := by
  have hnoFault : faultOf s (.modexp rd ra rb rc) = none := by simp [faultOf, hb, he, hn, hpos.ne']
  rw [exec_of_noFault hnoFault, assigned, hb, he, hn]
  simp only [Int.toNat_natCast, modexp_eq]

/-- Settles O25: the three conditions are those of the one fault of MODEXP. -/
theorem modexpFaultsDomain : Obligations.ModexpFaultsDomain := by
  unfold Obligations.ModexpFaultsDomain
  exact fun rd ra rb rc s h => exec_of_fault (if_pos h)

/-- Settles O24: in the domain the operands are naturals, and a remainder lies below its modulus. -/
theorem modexpCompletes : Obligations.ModexpCompletes := by
  unfold Obligations.ModexpCompletes
  intro rd ra rb rc s hn he hb
  refine ⟨?_, Int.emod_nonneg _ hn.ne', Int.emod_lt_of_pos _ hn⟩
  obtain ⟨b, hb⟩ := Int.eq_ofNat_of_zero_le hb
  obtain ⟨e, he⟩ := Int.eq_ofNat_of_zero_le he
  obtain ⟨n, hn'⟩ := Int.eq_ofNat_of_zero_le hn.le
  rw [exec_modexp_of_natCast rd hb he hn' (by omega), hb, he, hn', Int.toNat_natCast, Int.natCast_mod, Int.natCast_pow]

/-- Settles O26: through `modexp_eq` each law is one of powers modulo `n`. -/
theorem modexpLaws : Obligations.ModexpLaws := by
  unfold Obligations.ModexpLaws
  intro b e e1 e2 n hn
  simp only [modexp_eq]
  refine ⟨Nat.pow_mod b e n, ?_, ?_, Nat.mod_lt _ hn⟩
  · rw [pow_add, Nat.mul_mod]
  · rw [pow_mul, pow_two, Nat.pow_mod]

/-- Fermat's little theorem for every base, a multiple of `p` too: exponents that are 1 modulo `p - 1` act as 1. -/
theorem pow_modEq_self_of_prime {p k : Nat} (hp : p.Prime) (hk : 1 ≤ k) (h : k ≡ 1 [MOD p - 1]) (m : Nat) :
    m ^ k ≡ m [MOD p] := by
  by_cases hdvd : p ∣ m
  · have hzero : m ≡ 0 [MOD p] := Nat.modEq_zero_iff_dvd.2 hdvd
    have hpow : m ^ k ≡ 0 [MOD p] := Nat.modEq_zero_iff_dvd.2 (dvd_pow hdvd (by omega))
    exact hpow.trans hzero.symm
  · obtain ⟨c, hc⟩ := (Nat.modEq_iff_dvd' hk).1 h.symm
    have hfermat : m ^ (p - 1) ≡ 1 [MOD p] := by
      rw [← Nat.totient_prime hp]
      exact Nat.ModEq.pow_totient (hp.coprime_iff_not_dvd.2 hdvd).symm
    calc m ^ k = (m ^ (p - 1)) ^ c * m := by rw [← pow_mul, ← hc, ← pow_succ, Nat.sub_add_cancel hk]
      _ ≡ 1 ^ c * m [MOD p] := (hfermat.pow c).mul_right m
      _ = m := by rw [one_pow, one_mul]

namespace KeyInvariant

variable {p q n e d : Nat}

/-- For two different primes the exponents are not inverses modulo φ = 1, where d would be 0. -/
theorem one_le_mul (h : KeyInvariant p q n e d) (hpq : p ≠ q) : 1 ≤ e * d := by
  have hp := h.primeP.two_le
  have hq := h.primeQ.two_le
  rw [Nat.one_le_iff_ne_zero]
  intro hzero
  have hphi : (p - 1) * (q - 1) = 1 := Nat.dvd_one.1 (Nat.modEq_zero_iff_dvd.1 (hzero ▸ h.inverse).symm)
  obtain ⟨hp1, hq1⟩ := mul_eq_one.1 hphi
  omega

/-- R145: a power by the product of the exponents is the base modulo `p` and modulo `q`, so modulo `n`. -/
theorem pow_mul_modEq (h : KeyInvariant p q n e d) (hpq : p ≠ q) (m : Nat) : m ^ (e * d) ≡ m [MOD n] := by
  have hpos := h.one_le_mul hpq
  rw [h.modulus, ← Nat.modEq_and_modEq_iff_modEq_mul ((Nat.coprime_primes h.primeP h.primeQ).2 hpq)]
  exact ⟨pow_modEq_self_of_prime h.primeP hpos h.inverse.of_mul_right m,
    pow_modEq_self_of_prime h.primeQ hpos h.inverse.of_mul_left m⟩

/-- R145: the two exponentiations give back a block below the modulus. -/
theorem pow_mod_pow_mod (h : KeyInvariant p q n e d) (hpq : p ≠ q) {m : Nat} (hm : m < n) :
    (m ^ e % n) ^ d % n = m := by
  rw [← Nat.pow_mod, ← pow_mul, h.pow_mul_modEq hpq m, Nat.mod_eq_of_lt hm]

end KeyInvariant

/-- Settles O27: the first result goes to a register that is neither `d` nor `n`, so the second command finds both. -/
theorem rsaCommandsInvert : Obligations.RsaCommandsInvert := by
  unfold Obligations.RsaCommandsInvert
  intro p q n e d m rm re rd rn rc ro s hkey hpq hm hrm hre hrd hrn hcd hcn
  have hn : 0 < n := Nat.zero_lt_of_lt hm
  have hrd' := (State.getN_setN_other s ((m ^ e % n : Nat) : Int) hcd).trans hrd
  have hrn' := (State.getN_setN_other s ((m ^ e % n : Nat) : Int) hcn).trans hrn
  refine ⟨_, _, exec_modexp_of_natCast rc hrm hre hrn hn, rfl, rfl,
    exec_modexp_of_natCast ro (State.getN_setN_same s rc _) hrd' hrn' hn, rfl, rfl, ?_⟩
  rw [State.getN_complete, State.getN_setN_same, hkey.pow_mod_pow_mod hpq hm]

end Sys2Proof.Machine
end

section
/-! Decimal digits (R150, R151): a field spells the sum of R150, and `digits` and `fieldValue` undo each other. All by
the cell at the highest index, the least significant digit. -/

namespace Sys2Proof.Machine

/-- R151: a field one cell longer holds the digits of `v` div 10, and then the last digit of `v`. -/
theorem digits_succ (v w : Nat) : digits v (w + 1) = digits (v / 10) w ++ [BitVec.ofNat 8 (v % 10)] := by
  have hlead : ∀ i, i < w → v / 10 ^ (w + 1 - 1 - i) = v / 10 / 10 ^ (w - 1 - i) := fun i hi => by
    rw [Nat.div_div_eq_div_mul, ← pow_succ', show w - 1 - i + 1 = w + 1 - 1 - i by omega]
  have hlast : v / 10 ^ (w + 1 - 1 - w) = v := by simp
  rw [digits, List.range_succ, List.map_append, List.map_singleton, hlast]
  exact congrArg (· ++ _) (List.map_congr_left fun i hi => by rw [hlead i (List.mem_range.1 hi)])

theorem allDigits_append_one (cs : List Byte) (c : Byte) :
    allDigits (cs ++ [c]) = true ↔ allDigits cs = true ∧ c.toNat ≤ 9 := by
  simp [allDigits]

/-- R151: the field DENC writes is decimal. -/
theorem allDigits_digits (v w : Nat) : allDigits (digits v w) = true := by
  induction w generalizing v with
  | zero => rfl
  | succ w ih =>
    rw [digits_succ, allDigits_append_one, BitVec.toNat_ofNat]
    exact ⟨ih (v / 10), by omega⟩

/-- R156: the digits of a value that fits the field spell the value. -/
theorem fieldValue_digits {v w : Nat} (h : v < 10 ^ w) : fieldValue (digits v w) = v := by
  induction w generalizing v with
  | zero =>
    obtain rfl : v = 0 := by simpa using h
    rfl
  | succ w ih =>
    have hlead : v / 10 < 10 ^ w := Nat.div_lt_of_lt_mul (pow_succ' 10 w ▸ h)
    rw [digits_succ, fieldValue_append_one, ih hlead, BitVec.toNat_ofNat]
    omega

/-- R156: a decimal field spells a value that fits the field. -/
theorem fieldValue_lt {cs : List Byte} (h : allDigits cs = true) : fieldValue cs < 10 ^ cs.length := by
  induction cs using List.reverseRecOn with
  | nil => exact Nat.one_pos
  | append_singleton cs c ih =>
    obtain ⟨hcs, hc⟩ := (allDigits_append_one cs c).1 h
    have hlead := ih hcs
    rw [fieldValue_append_one, List.length_append, List.length_singleton, pow_succ]
    omega

/-- R156: the digits of the value a decimal field spells are the field. -/
theorem digits_fieldValue {cs : List Byte} (h : allDigits cs = true) : digits (fieldValue cs) cs.length = cs := by
  induction cs using List.reverseRecOn with
  | nil => rfl
  | append_singleton cs c ih =>
    obtain ⟨hcs, hc⟩ := (allDigits_append_one cs c).1 h
    have hdiv : (fieldValue cs * 10 + c.toNat) / 10 = fieldValue cs := by omega
    have hmod : (fieldValue cs * 10 + c.toNat) % 10 = c.toNat := by omega
    rw [List.length_append, List.length_singleton, digits_succ, fieldValue_append_one, hdiv, hmod, ih hcs,
      BitVec.ofNat_toNat, BitVec.setWidth_eq]

namespace State

/-- R150: the sum over a field one cell longer. -/
theorem fieldSum_succ (s : State) (w : Nat) :
    s.fieldSum (w + 1) = s.fieldSum w * 10 + (s.getCell (s.fieldStart + w)).toNat := by
  have hshift : ∀ i, i < w → 10 ^ (w + 1 - 1 - i) = 10 ^ (w - 1 - i) * 10 := fun i hi => by
    rw [← pow_succ, show w - 1 - i + 1 = w + 1 - 1 - i by omega]
  rw [fieldSum, Finset.sum_range_succ, fieldSum, Finset.sum_mul]
  congr 1
  · exact Finset.sum_congr rfl fun i hi => by rw [hshift i (Finset.mem_range.1 hi), mul_assoc]
  · simp

/-- R150: the value DDEC computes, digit by digit, is the sum over the field. -/
theorem fieldValue_field (s : State) (w : Nat) : fieldValue (s.field w) = s.fieldSum w := by
  induction w with
  | zero => rfl
  | succ w ih => rw [field_succ, fieldValue_append_one, ih, fieldSum_succ]

end State

end Sys2Proof.Machine
end

section
/-! DENC and DDEC (R151, R154): their frames, and how they end, from `faultOf` and `assigned`. -/

namespace Sys2Proof.Machine

/-! Frames -/

/-- R151: the only cells a command stores to are those of the field at DPTR. -/
theorem getCell_assigned_outside {s : State} (hw : Memory.wf s.dmem) {i : Instr} {k : Nat}
    (hk : ¬(s.fieldStart ≤ k ∧ k < s.fieldStart + storesCells i)) : (assigned s i).getCell k = s.getCell k := by
  cases i with
  | denc ra width => exact State.getCell_setCells_outside hw _ _ ((length_digits _ _).symm ▸ hk)
  | _ => rfl

/-- Settles O13: a fault changes STATUS only, and a completed DENC stores to its field. -/
theorem frameOfDenc : Obligations.FrameOfDenc := by
  unfold Obligations.FrameOfDenc
  intro ra width s t hw ht
  have hstatus := exec_commitStatus ht
  have hrest := exec_untouched ht
  rcases exec_outcome ht with ⟨c, -, rfl⟩ | ⟨-, rfl⟩
  · exact ⟨fun _ => rfl, fun _ _ => rfl, rfl, hstatus, hrest⟩
  · exact ⟨fun _ => getN_assigned_of_not_mem List.not_mem_nil, fun _ hk => getCell_assigned_outside hw hk,
      cp_assigned (by simp), hstatus, hrest⟩

/-- Settles O14: a fault changes STATUS only, and a completed DDEC stores no cell. -/
theorem frameOfDdec : Obligations.FrameOfDdec := by
  unfold Obligations.FrameOfDdec
  intro rd width s t ht
  have hstatus := exec_commitStatus ht
  have hrest := exec_untouched ht
  rcases exec_outcome ht with ⟨c, -, rfl⟩ | ⟨-, rfl⟩
  · exact ⟨fun _ _ => rfl, fun _ => rfl, rfl, hstatus, hrest⟩
  · exact ⟨fun _ hr => getN_assigned_of_not_mem (by simpa [writesN] using hr),
      fun k => congrArg (Memory.read · k) (dmem_assigned rfl), cp_assigned (by simp), hstatus, hrest⟩

/-! How they end -/

theorem State.fieldOutside_of_fits {s : State} {w : Nat} (h : s.fieldStart + w ≤ s.cfg.dlen) :
    s.fieldOutside w = false :=
  Bool.eq_false_iff.2 (mt (s.fieldOutside_iff w).1 h.not_gt)

/-- R151: a value fits a field of `w` cells as an integer exactly when it is not negative and fits as a natural. -/
theorem misfits_iff (v : Int) (w : Nat) : v < 0 ∨ 10 ^ w ≤ v.toNat ↔ v < 0 ∨ (10 : Int) ^ w ≤ v := by
  have hcast : (10 : Int) ^ w = ((10 ^ w : Nat) : Int) := by push_cast; rfl
  have hpos : 0 < 10 ^ w := Nat.pow_pos (by norm_num)
  omega

/-- R151: DENC completes exactly when the field fits in DMEM and the value fits the field. -/
theorem faultOf_denc_eq_none_iff {ra : Reg} {width : BitVec 12} {s : State} :
    faultOf s (.denc ra width) = none ↔
      s.fieldStart + width.toNat ≤ s.cfg.dlen ∧ 0 ≤ s.getN ra ∧ s.getN ra < 10 ^ width.toNat := by
  simp only [faultOf, misfits_iff, State.fieldOutside_iff]
  split_ifs with hout hval
  · simp [hout.not_ge]
  · simp only [false_iff]
    omega
  · simp only [true_iff]
    omega

/-- R154: DDEC completes exactly when the field fits in DMEM, is decimal and spells a value that fits a register. -/
theorem faultOf_ddec_eq_none_iff {rd : Reg} {width : BitVec 12} {s : State} :
    faultOf s (.ddec rd width) = none ↔
      s.fieldStart + width.toNat ≤ s.cfg.dlen ∧ s.fieldDecimal width.toNat ∧
        (s.fieldSum width.toNat : Int) ≤ s.cfg.maxN := by
  simp only [faultOf, State.fieldOutside_iff, State.fieldValue_field, ← allDigits_field]
  split_ifs with hout hdec hmax
  · simp [hout.not_ge]
  · simp [hdec]
  · simp [hmax.not_ge]
  · exact iff_of_true rfl ⟨not_lt.1 hout, Bool.not_eq_false _ ▸ hdec, not_lt.1 hmax⟩

/-- R31: the index after a field that fits in DMEM is a value of DPTR. -/
theorem toNat_dptr_of_le_dlen {c : Config} (hc : c.Legal) {p : Nat} (hp : p ≤ c.dlen) :
    (BitVec.ofNat 16 p).toNat = p := by
  obtain ⟨-, -, -, hdlen⟩ := hc
  rw [BitVec.toNat_ofNat, Nat.mod_eq_of_lt (by omega)]

/-- Settles O28: no fault applies, and cell i of the field is element i of `digits`. -/
theorem dencCompletes : Obligations.DencCompletes := by
  unfold Obligations.DencCompletes
  intro ra width s hw hc hfit h0 hlt
  refine ⟨_, exec_of_noFault (faultOf_denc_eq_none_iff.2 ⟨hfit, h0, hlt⟩), rfl, rfl, rfl, fun i hi => ?_,
    toNat_dptr_of_le_dlen hc hfit⟩
  have hi' : i < (digits (s.getN ra).toNat width.toNat).length := (length_digits _ _).symm ▸ hi
  rw [State.getCell_complete, assigned, State.getCell_setDptr, State.getCell_setCells_inside hw _ _ hi',
    getElem_digits]

/-- Settles O30: no fault applies, and the value is the sum over the field. -/
theorem ddecCompletes : Obligations.DdecCompletes := by
  unfold Obligations.DdecCompletes
  intro rd width s hc hfit hdec hmax
  refine ⟨_, exec_of_noFault (faultOf_ddec_eq_none_iff.2 ⟨hfit, hdec, hmax⟩), rfl, rfl, rfl, ?_,
    toNat_dptr_of_le_dlen hc hfit⟩
  rw [State.getN_complete, assigned, State.getN_setDptr, State.getN_setN_same, State.fieldValue_field]

/-- R151, R154: a field that does not fit in DMEM faults before anything else is checked. -/
theorem faultOf_of_fieldOutside {s : State} {width : BitVec 12} (h : s.cfg.dlen < s.fieldStart + width.toNat)
    (r : Reg) : faultOf s (.denc r width) = some .dbounds ∧ faultOf s (.ddec r width) = some .dbounds :=
  ⟨if_pos ((s.fieldOutside_iff _).2 h), if_pos ((s.fieldOutside_iff _).2 h)⟩

/-- Settles O29: the field is checked before the value. -/
theorem dencFaults : Obligations.DencFaults := by
  unfold Obligations.DencFaults
  refine fun ra width s => ⟨fun hout => exec_of_fault (faultOf_of_fieldOutside hout ra).1, fun hfit hval =>
    exec_of_fault ?_⟩
  simp [faultOf, State.fieldOutside_of_fits hfit, (misfits_iff _ _).2 hval]

/-- Settles O31: the field is checked first, then its cells, then its value. -/
theorem ddecFaults : Obligations.DdecFaults := by
  unfold Obligations.DdecFaults
  refine fun rd width s => ⟨fun hout => exec_of_fault (faultOf_of_fieldOutside hout rd).2,
    fun hfit hdec => exec_of_fault ?encoding, fun hfit hdec hmax => exec_of_fault ?range⟩
  case encoding =>
    have hcells : allDigits (s.field width.toNat) = false := Bool.eq_false_iff.2 (mt (allDigits_field s _).1 hdec)
    simp [faultOf, State.fieldOutside_of_fits hfit, hcells]
  case range =>
    have hcells : allDigits (s.field width.toNat) = true := (allDigits_field s _).2 hdec
    simp [faultOf, State.fieldOutside_of_fits hfit, hcells, State.fieldValue_field, hmax]

end Sys2Proof.Machine
end

section
/-! R156: DENC and DDEC of one width at one place undo each other, because `digits` and `fieldValue` do. -/

namespace Sys2Proof.Machine

/-- A command that leaves ERR at 0 completed (R102). -/
theorem exec_completed {i : Instr} {s t : State} (h : exec i s = .next t) (ht : t.err = false) :
    faultOf s i = none ∧ t = (assigned s i).complete := by
  rcases exec_outcome h with ⟨c, -, rfl⟩ | hdone
  · cases ht
  · exact hdone

/-- The field a completed DENC leaves at the old DPTR, in any state that still holds its cells. -/
theorem field_of_denc {s s' : State} {ra : Reg} {width : BitVec 12} (hw : Memory.wf s.dmem) (hd : s'.dptr = s.dptr)
    (h : ∀ k, k < width.toNat →
      s'.getCell (s.fieldStart + k) = (assigned s (.denc ra width)).complete.getCell (s.fieldStart + k)) :
    s'.field width.toNat = digits (s.getN ra).toNat width.toNat := by
  have hstart : s'.fieldStart = s.fieldStart := congrArg BitVec.toNat hd
  refine List.ext_getElem (by rw [State.length_field, length_digits]) fun k hk hk' => ?_
  rw [State.getElem_field, hstart, h k (hk.trans_eq (s'.length_field _))]
  exact State.getCell_setCells_inside hw _ _ hk'

/-- Writing the cells of the field back changes no cell. -/
theorem State.getCell_setCells_field {s : State} (hw : Memory.wf s.dmem) (w k : Nat) :
    (s.setCells s.fieldStart (s.field w)).getCell k = s.getCell k := by
  by_cases hk : s.fieldStart ≤ k ∧ k < s.fieldStart + (s.field w).length
  · obtain ⟨i, rfl⟩ := Nat.exists_eq_add_of_le hk.1
    have hi : i < (s.field w).length := by omega
    rw [getCell_setCells_inside hw _ _ hi, getElem_field]
  · exact getCell_setCells_outside hw _ _ hk

/-- DDEC of a field that holds the digits of a value gives the value (R156). -/
theorem exec_ddec_of_digits {s : State} {width : BitVec 12} {v : Nat} (rd : Reg)
    (hfit : s.fieldStart + width.toNat ≤ s.cfg.dlen) (hfield : s.field width.toNat = digits v width.toNat)
    (hv : v < 10 ^ width.toNat) (hmax : (v : Int) ≤ s.cfg.maxN) :
    exec (.ddec rd width) s = .next ((s.setN rd v).setDptr (s.fieldStart + width.toNat)).complete := by
  have hvalue : fieldValue (s.field width.toNat) = v := hfield ▸ fieldValue_digits hv
  have hdec : s.fieldDecimal width.toNat := (allDigits_field s _).1 (hfield ▸ allDigits_digits _ _)
  have hnoFault : faultOf s (.ddec rd width) = none :=
    faultOf_ddec_eq_none_iff.2 ⟨hfit, hdec, by rwa [← State.fieldValue_field, hvalue]⟩
  rw [exec_of_noFault hnoFault, assigned, hvalue]

/-- DENC of the value that a decimal field spells leaves every cell as it is (R156). -/
theorem exec_denc_of_fieldValue {s : State} {ra : Reg} {width : BitVec 12} (hw : Memory.wf s.dmem)
    (hfit : s.fieldStart + width.toNat ≤ s.cfg.dlen) (hdec : s.fieldDecimal width.toNat)
    (hv : s.getN ra = fieldValue (s.field width.toNat)) :
    ∃ u, exec (.denc ra width) s = .next u ∧ u.done = true ∧ u.err = s.err ∧ ∀ k, u.getCell k = s.getCell k := by
  have hdigits := (allDigits_field s _).2 hdec
  have hlt := fieldValue_lt hdigits
  have hsame := digits_fieldValue hdigits
  rw [State.length_field] at hlt hsame
  have hnoFault : faultOf s (.denc ra width) = none :=
    faultOf_denc_eq_none_iff.2 ⟨hfit, hv ▸ Int.natCast_nonneg _, hv ▸ by exact_mod_cast hlt⟩
  refine ⟨_, exec_of_noFault hnoFault, rfl, rfl, fun k => ?_⟩
  rw [State.getCell_complete, assigned, State.getCell_setDptr, hv, Int.toNat_natCast, hsame,
    State.getCell_setCells_field hw]

/-- Settles O32: in (a) the field holds the digits of the value, which spell it; in (b) the value is the one the field
spells, whose digits are the field. -/
theorem codecInverse : Obligations.CodecInverse := by
  unfold Obligations.CodecInverse
  intro s t s' width hinv _ hte hcfg hd hw' hcells
  have hstart : s'.fieldStart = s.fieldStart := congrArg BitVec.toNat hd
  refine ⟨fun ra rd hx => ?decodes, fun rd hx hrd => ?encodes⟩
  case decodes =>
    obtain ⟨hf, rfl⟩ := exec_completed hx hte
    obtain ⟨hfit, h0, hlt⟩ := faultOf_denc_eq_none_iff.1 hf
    have hvalue : ((s.getN ra).toNat : Int) = s.getN ra := Int.toNat_of_nonneg h0
    rw [← hvalue, ← hstart]
    refine exec_ddec_of_digits rd (by rwa [hstart, hcfg]) (field_of_denc hinv.cellsWf hd hcells)
      ((Int.toNat_lt h0).2 (by exact_mod_cast hlt)) ?_
    rw [hvalue, hcfg]
    exact (hinv.inRange ra).2
  case encodes =>
    obtain ⟨hf, rfl⟩ := exec_completed hx hte
    obtain ⟨hfit, hdec, -⟩ := faultOf_ddec_eq_none_iff.1 hf
    have hfield : s'.field width.toNat = s.field width.toNat := field_congr fun k hk => hstart ▸ hcells k hk
    refine exec_denc_of_fieldValue hw' (by rwa [hstart, hcfg]) ?_ ?_
    · exact (allDigits_field s' _).1 (hfield ▸ (allDigits_field s _).2 hdec)
    · rw [hrd, State.getN_complete, assigned, State.getN_setDptr, State.getN_setN_same, hfield]

end Sys2Proof.Machine
end

section
/-! RUN (R169): issue, wait and check. What a command does and what the host's reads leave on the data port do not
depend on each other, so the host may poll any number of times before the commit. -/

namespace Sys2Proof.Machine

/-! The data port and the latch are no operands of a command. -/

theorem faultOf_setHostData (s : State) (d : Word) (i : Instr) :
    faultOf { s with hostData := d } i = faultOf s i := by
  cases i <;> rfl

theorem assigned_setHostData (s : State) (d : Word) (i : Instr) :
    assigned { s with hostData := d } i = { assigned s i with hostData := d } := by
  cases i <;> rfl

theorem faultOf_issue (s : State) (v : Word) (i : Instr) : faultOf (s.issue v) i = faultOf s i := by
  cases i <;> rfl

theorem assigned_issue (s : State) (v : Word) (i : Instr) : assigned (s.issue v) i = (assigned s i).issue v := by
  cases i <;> rfl

theorem exec_setHostData {i : Instr} {s t : State} (h : exec i s = .next t) (d : Word) :
    exec i { s with hostData := d } = .next { t with hostData := d } := by
  rcases exec_outcome h with ⟨c, hf, rfl⟩ | ⟨hf, rfl⟩
  · exact exec_of_fault ((faultOf_setHostData s d i).trans hf)
  · rw [exec_of_noFault ((faultOf_setHostData s d i).trans hf), assigned_setHostData]
    rfl

/-- R54: what the host has read does not matter to the engine. -/
theorem engineTurn_setHostData {s t : State} (h : engineTurn s = .next t) (d : Word) :
    engineTurn { s with hostData := d } = .next { t with hostData := d } := by
  rcases engineTurn_cases h with ⟨hb, rfl⟩ | ⟨hb, ⟨why, hd⟩, rfl⟩ | ⟨hb, i, hd, hx⟩
  · exact engineTurn_idle hb
  · exact (engineTurn_busy (s := { s with hostData := d }) hb).trans (commitCmd_of_illegal hd)
  · exact (engineTurn_busy (s := { s with hostData := d }) hb).trans
      ((commitCmd_of_decode (s := { s with hostData := d }) hd).trans (exec_setHostData hx d))

/-! STATUS -/

theorem readReg_status (s : State) : readReg 0x0004 s = .ok s.statusWord { s with hostData := s.statusWord } :=
  readReg_ok s portLoc_status

/-- R28: the bits of STATUS that a procedure looks at. -/
theorem getLsbD_statusWord (s : State) :
    s.statusWord.getLsbD 0 = s.busy ∧ s.statusWord.getLsbD 2 = s.err ∧ s.statusWord.getLsbD 3 = s.cp := by
  obtain ⟨hbusy, -, herr, hcp, -, -⟩ := getLsbD_fiveBits s.busy s.done s.err s.cp s.rej
  exact ⟨hbusy, herr, hcp⟩

/-! WAIT and RUN -/

/-- R89: a wait ends in the state of the commit, with its STATUS, however many polls come before it. -/
theorem waitIdle_ok {s t : State} (hb : s.busy = true) (ht : engineTurn s = .next t) (polls : Nat) :
    ∃ d, waitIdle polls s = .ok t.statusWord { t with hostData := d } := by
  induction polls generalizing s t with
  | zero =>
    have hcommit : hostStep .engine s = .ok () t := by simp only [hostStep, takeTurn, ht]
    exact ⟨t.statusWord, by rw [waitIdle, bind_ok _ hcommit, readReg_status]⟩
  | succ polls ih =>
    obtain ⟨d, hwait⟩ := ih (s := { s with hostData := s.statusWord }) hb (engineTurn_setHostData ht _)
    refine ⟨d, ?_⟩
    rw [waitIdle, bind_ok _ (readReg_status s), if_pos ((getLsbD_statusWord s).1.trans hb), hwait]
    rfl

/-- A state in which a procedure may start: nothing is in progress and no fault is pending. -/
structure State.Ready (s : State) : Prop where
  inv : s.Inv
  idle : s.busy = false
  noFault : s.err = false

namespace State.Ready

variable {s t : State} {word : Word}

/-- R60, R101: the write to CMD is accepted. -/
theorem writeReg_cmd (h : s.Ready) (word : Word) : writeReg 0x0000 word s = .ok () (s.issue word) := by
  simp only [writeReg, hostStep, takeTurn, hostTurn_issue h.idle h.noFault]

/-- R169: RUN of a word whose commit completes. -/
theorem runWord_of_completed (h : s.Ready) (ht : engineTurn (s.issue word) = .next t) (he : t.err = false)
    (polls : Nat) : ∃ d, runWord word polls s = .ok () { t with hostData := d } := by
  obtain ⟨d, hwait⟩ := waitIdle_ok rfl ht polls
  refine ⟨d, ?_⟩
  rw [runWord, bind_ok _ (h.writeReg_cmd word), bind_ok _ hwait, (getLsbD_statusWord t).2.1, he]
  rfl

/-- R169: RUN of a word whose commit faults. -/
theorem runWord_of_faulted (h : s.Ready) (ht : engineTurn (s.issue word) = .next t) (he : t.err = true)
    {c : FaultCode} (hc : t.errcode = some c) (polls : Nat) :
    ∃ d, runWord word polls s = .error (abortOf (BitVec.ofNat 32 c.code)) { t.ackFault with hostData := d } := by
  obtain ⟨d, hwait⟩ := waitIdle_ok rfl ht polls
  have hcode : readReg 0x0008 { t with hostData := d } =
      .ok (BitVec.ofNat 32 c.code) { t with hostData := BitVec.ofNat 32 c.code } := by
    rw [readReg_ok _ portLoc_errcode, readLoc_setHostData, State.readLoc, errcodeWord_of_some hc]
  have hbit : t.statusWord.getLsbD 2 = true := (getLsbD_statusWord t).2.1.trans he
  refine ⟨BitVec.ofNat 32 c.code, ?_⟩
  rw [runWord, bind_ok _ (h.writeReg_cmd word), bind_ok _ hwait, if_pos hbit, bind_ok _ hcode,
    bind_ok _ (writeReg_ok _ _ portLoc_status)]
  rfl

end State.Ready

/-- Settles O52: the commit completes or faults, and RUN tells the two apart by ERR. -/
theorem runIsIssueThenCommit : Obligations.RunIsIssueThenCommit := by
  unfold Obligations.RunIsIssueThenCommit
  intro s word polls hinv hb he
  have h : s.Ready := ⟨hinv, hb, he⟩
  obtain ⟨t, ht⟩ := engineTurn_next (s.issue word)
  refine ⟨t, ht, ?_⟩
  rcases Bool.eq_false_or_eq_true t.err with hte | hte
  · obtain ⟨c, hc⟩ := Option.ne_none_iff_exists'.1 (((hinv.issue he word).of_engineTurn ht).errHasCode.1 hte)
    obtain ⟨d, hrun⟩ := h.runWord_of_faulted ht hte hc polls
    exact .inr ⟨hte, c, d, hc, hrun⟩
  · exact .inl ⟨hte, h.runWord_of_completed ht hte polls⟩

end Sys2Proof.Machine
end

section
/-! CHUNK and DECODE_MSG without a run of the block: how many blocks CHUNK makes (R173, R175), and what DECODE_MSG
checks before its first access (R172). -/

namespace Sys2Proof.Machine

/-- What a procedure that returned did first. -/
theorem of_bind_ok {α β : Type} {x : HostM α} {f : α → HostM β} {s t : State} {b : β}
    (h : (x >>= f) s = .ok b t) : ∃ a u, x s = .ok a u ∧ f a u = .ok b t := by
  cases hx : x s with
  | ok a u => exact ⟨a, u, rfl, (bind_ok f hx).symm.trans h⟩
  | error e u => cases (bind_error f hx).symm.trans h

theorem length_of_decodeFields {nD : Reg} {polls count : Nat} {width : BitVec 12} {s t : State} {values : List Int}
    (h : decodeFields nD polls width count s = .ok values t) : values.length = count := by
  induction count generalizing s values with
  | zero =>
    cases h
    rfl
  | succ count ih =>
    rw [decodeFields] at h
    obtain ⟨_, _, -, h⟩ := of_bind_ok h
    obtain ⟨v, _, -, h⟩ := of_bind_ok h
    obtain ⟨rest, _, hrest, h⟩ := of_bind_ok h
    cases h
    rw [List.length_cons, ih hrest]

/-- R175: the blocks hold the digits and the padding, which is less than a block. -/
theorem numBlocks_mul (total : Nat) {blockLen : Nat} (h : 1 ≤ blockLen) :
    numBlocks total blockLen * blockLen = total + paddingCount total blockLen ∧
      paddingCount total blockLen < blockLen := by
  have hdiv := Nat.div_add_mod' (total + blockLen - 1) blockLen
  have hmod := Nat.mod_lt (total + blockLen - 1) h
  simp only [paddingCount, numBlocks]
  omega

/-- Settles O54: CHUNK returns one value per block, whatever the block does. -/
theorem chunkingProperty : Obligations.ChunkingProperty := by
  unfold Obligations.ChunkingProperty
  intro nB polls total blockLen p0 pads s t blocks hlen h
  rw [chunk] at h
  obtain ⟨_, _, -, h⟩ := of_bind_ok h
  obtain ⟨_, _, -, h⟩ := of_bind_ok h
  obtain ⟨_, _, -, h⟩ := of_bind_ok h
  rw [length_of_decodeFields h]
  exact numBlocks_mul total hlen

/-- Settles O55: the check of the grouping comes first. -/
theorem decodeMessageChecksGrouping : Obligations.DecodeMessageChecksGrouping := by
  unfold Obligations.DecodeMessageChecksGrouping
  intro nD polls len padding p0 s h
  refine bind_error _ ?_
  rw [checkGrouping, if_pos h]
  rfl

end Sys2Proof.Machine
end

section
/-! How a procedure ends, as a triple: what holds before it, what it returns or how it aborts, and what holds after it.
One rule for sequencing, and one for each access that the procedures of R165 to R184 are made of. -/

namespace Sys2Proof.Machine

/-- The result of a procedure that returns a value or aborts, in the state `t`. -/
def ended {α : Type} (r : Except HostAbort α) (t : State) : EStateM.Result HostAbort State α :=
  match r with
  | .ok a => .ok a t
  | .error e => .error e t

/-- Under the parameters `c`, from every ready state in which `P` holds, `x` ends with `r` in a ready state in which
`Q` holds. -/
def Ends {α : Type} (c : Config) (P : State → Prop) (x : HostM α) (r : Except HostAbort α) (Q : State → Prop) :
    Prop :=
  ∀ s : State, s.Ready → s.cfg = c → P s → ∃ t, x s = ended r t ∧ t.Ready ∧ t.cfg = c ∧ Q t

/-- Nothing is said about the state. -/
def Any (_ : State) : Prop := True

namespace Ends

variable {α β : Type} {c : Config} {P P' Q Q' R : State → Prop}

theorem pure (a : α) (h : ∀ s, P s → Q s) : Ends c P (pure a) (.ok a) Q :=
  fun s hs hc hP => ⟨s, rfl, hs, hc, h s hP⟩

theorem throw (e : HostAbort) (h : ∀ s, P s → Q s) : Ends c P (throw e : HostM α) (.error e) Q :=
  fun s hs hc hP => ⟨s, rfl, hs, hc, h s hP⟩

theorem bind {x : HostM α} {f : α → HostM β} {a : α} {r : Except HostAbort β} (hx : Ends c P x (.ok a) Q)
    (hf : Ends c Q (f a) r R) : Ends c P (x >>= f) r R := by
  intro s h hc hP
  obtain ⟨t, hxs, ht, htc, hQ⟩ := hx s h hc hP
  rw [bind_ok f hxs]
  exact hf t ht htc hQ

theorem abort {x : HostM α} {f : α → HostM β} {e : HostAbort} (hx : Ends c P x (.error e) Q) :
    Ends c P (x >>= f) (.error e) Q := by
  intro s h hc hP
  obtain ⟨t, hxs, ht⟩ := hx s h hc hP
  exact ⟨t, bind_error f hxs, ht⟩

theorem pre {x : HostM α} {r : Except HostAbort α} (hx : Ends c P x r Q) (h : ∀ s, P' s → P s) : Ends c P' x r Q :=
  fun s hs hc hP => hx s hs hc (h s hP)

theorem post {x : HostM α} {r : Except HostAbort α} (hx : Ends c P x r Q) (h : ∀ s, Q s → Q' s) : Ends c P x r Q' := by
  intro s hs hc hP
  obtain ⟨t, hxs, ht, htc, hQ⟩ := hx s hs hc hP
  exact ⟨t, hxs, ht, htc, h t hQ⟩

/-- The parameters that a ready state has are legal (R8). -/
theorem of_legal {x : HostM α} {r : Except HostAbort α} (h : c.Legal → Ends c P x r Q) : Ends c P x r Q :=
  fun s hs hc => h (hc ▸ hs.inv.legal) s hs hc

/-- Whatever DMEM holds, it is some canonical memory. -/
theorem of_memory {x : HostM α} {r : Except HostAbort α}
    (h : ∀ m, Memory.wf m → Ends c (fun s => s.dmem = m) x r Q) : Ends c Any x r Q :=
  fun s hs hc _ => h s.dmem hs.inv.cellsWf s hs hc rfl

end Ends

/-! What the accesses keep of a ready state -/

namespace State.Ready

variable {s : State}

theorem setN (h : s.Ready) (r : Reg) {v : Int} (hv : s.cfg.minN ≤ v ∧ v ≤ s.cfg.maxN) : (s.setN r v).Ready :=
  ⟨h.inv.setN r hv, h.idle, h.noFault⟩

theorem setDptr (h : s.Ready) (p : Nat) : (s.setDptr p).Ready := ⟨h.inv.setDptr p, h.idle, h.noFault⟩

theorem setCells (h : s.Ready) {p : Nat} {vs : List Byte} (hp : p + vs.length ≤ s.cfg.dlen) :
    (s.setCells p vs).Ready :=
  ⟨h.inv.setCells hp, h.idle, h.noFault⟩

theorem setHostData (h : s.Ready) (d : Word) : State.Ready { s with hostData := d } :=
  ⟨h.inv.setHostData d, h.idle, h.noFault⟩

end State.Ready

section
variable {c : Config} {P Q : State → Prop}

/-! LOADN and READN (R89) -/

theorem loadN_ends {i : Reg} {v : Int} (h0 : 0 ≤ v) (hmax : v ≤ c.maxN) (hQ : ∀ s, P s → Q (s.setN i v)) :
    Ends c P (loadN i v) (.ok ()) Q := by
  intro s h hc hP
  have hv : s.cfg.minN ≤ v ∧ v ≤ s.cfg.maxN := ⟨(minN_nonpos _).trans h0, hc ▸ hmax⟩
  exact ⟨_, (loadAndFetchRegister s i h.inv).1 v h.idle hv.1 hv.2, h.setN i hv, hc, hQ s hP⟩

theorem loadN_value_ends (i : Reg) {v : Int} (h0 : 0 ≤ v) (hmax : v ≤ c.maxN) :
    Ends c P (loadN i v) (.ok ()) (fun s => s.getN i = v) :=
  loadN_ends h0 hmax fun s _ => s.getN_setN_same i v

theorem fetchN_ends {i : Reg} {v : Int} (hv : ∀ s, P s → s.getN i = v)
    (hQ : ∀ s d, P s → Q { s with hostData := d }) : Ends c P (fetchN i) (.ok v) Q := by
  intro s h hc hP
  obtain ⟨d, hfetch⟩ := (loadAndFetchRegister s i h.inv).2
  rw [hv s hP] at hfetch
  exact ⟨_, hfetch, h.setHostData d, hc, hQ s d hP⟩

theorem fetchN_value_ends (i : Reg) {v : Int} : Ends c (fun s => s.getN i = v) (fetchN i) (.ok v) Any :=
  fetchN_ends (fun _ hs => hs) fun _ _ _ => trivial

/-! DPTR -/

/-- R31: the host's write of an index of DMEM, or of the one past its last. -/
theorem pointTo_ends {M : Memory → Prop} {p : Nat} (hp : p ≤ c.dlen) :
    Ends c (fun s => M s.dmem) (pointTo p) (.ok ()) (fun t => t.fieldStart = p ∧ M t.dmem) := by
  intro s h hc hM
  obtain ⟨-, -, -, hdlen⟩ := h.inv.legal
  have hlt : p < 65536 := by
    rw [hc] at hdlen
    omega
  have hbits : bits (BitVec.ofNat 32 p) 15 0 = p := by
    simp only [bits, BitVec.toNat_ofNat]
    omega
  have hwrite : pointTo p s = .ok () (s.setDptr p) := by
    rw [pointTo, if_neg (by omega)]
    exact (writeReg_ok _ s portLoc_dptr).trans
      (congrArg (EStateM.Result.ok ()) ((State.unlessBusy_of_idle h.idle _).trans (by rw [hbits])))
  exact ⟨_, hwrite, h.setDptr p, hc, toNat_dptr_of_le_dlen h.inv.legal (hc ▸ hp), hM⟩

/-! RUN of a command (R169) -/

theorem cfg_assigned (s : State) (i : Instr) : (assigned s i).cfg = s.cfg := by cases i <;> rfl

/-- A command that completes: what it assigns stands in the state after RUN. -/
theorem runCmd_ends {i : Instr} {polls : Nat} (hwf : i.wellFormed = true)
    (hf : ∀ s, s.Ready → s.cfg = c → P s → faultOf s i = none)
    (hQ : ∀ s d, s.Ready → s.cfg = c → P s →
      Q { assigned s i with busy := false, done := true, cmdreg := encode i, hostData := d }) :
    Ends c P (runCmd i polls) (.ok ()) Q := by
  intro s h hc hP
  have hcommit : engineTurn (s.issue (encode i)) = .next (assigned (s.issue (encode i)) i).complete :=
    ((engineTurn_busy rfl).trans (commitCmd_of_decode (decodeOfEncode i hwf))).trans
      (exec_of_noFault ((faultOf_issue s _ i).trans (hf s h hc hP)))
  have hinv := (h.inv.issue h.noFault (encode i)).of_engineTurn hcommit
  rw [assigned_issue] at hcommit hinv
  have herr : ((assigned s i).issue (encode i)).complete.err = false := (err_assigned s i).trans h.noFault
  obtain ⟨d, hrun⟩ := h.runWord_of_completed hcommit herr polls
  exact ⟨_, hrun, ⟨hinv.setHostData d, rfl, herr⟩, (cfg_assigned s i).trans hc, hQ s d h hc hP⟩

/-- A command that faults: RUN acknowledges the fault and aborts, and the command assigned nothing. -/
theorem runCmd_aborts {i : Instr} {polls : Nat} {code : FaultCode} (hwf : i.wellFormed = true)
    (hf : ∀ s, s.Ready → s.cfg = c → P s → faultOf s i = some code)
    (hQ : ∀ s v d, P s →
      Q { s with busy := false, done := false, err := false, errcode := none, cmdreg := v, hostData := d }) :
    Ends c P (runCmd i polls) (.error (abortOf (BitVec.ofNat 32 code.code))) Q := by
  intro s h hc hP
  have hcommit : engineTurn (s.issue (encode i)) = .next ((s.issue (encode i)).takeFault code) :=
    ((engineTurn_busy rfl).trans (commitCmd_of_decode (decodeOfEncode i hwf))).trans
      (exec_of_fault ((faultOf_issue s _ i).trans (hf s h hc hP)))
  have hinv := (h.inv.issue h.noFault (encode i)).of_engineTurn hcommit
  obtain ⟨d, hrun⟩ := h.runWord_of_faulted hcommit rfl rfl polls
  exact ⟨_, hrun, ⟨(hinv.writeStatus 4).setHostData d, rfl, rfl⟩, hc, hQ s _ d hP⟩

end

end Sys2Proof.Machine
end

section
/-! Digit fields written and read one after another, from DPTR on (R150, R170, R174, R176). -/

namespace Sys2Proof.Machine

namespace Memory

theorem writeList_append (m : Memory) (p : Nat) (vs vs' : List Byte) :
    writeList m p (vs ++ vs') = writeList (writeList m p vs) (p + vs.length) vs' := by
  induction vs generalizing m p with
  | nil => rfl
  | cons v vs ih =>
    rw [List.cons_append, writeList, ih, List.length_cons, Nat.add_comm vs.length, ← Nat.add_assoc]
    rfl

theorem readList_add (m : Memory) (p j k : Nat) : readList m p (j + k) = readList m p j ++ readList m (p + j) k := by
  simp only [readList, List.range_add, List.map_append, List.map_map]
  exact congrArg _ (List.map_congr_left fun i _ => by simp [Nat.add_assoc])

end Memory

/-- The cells from index `p` up hold the digits `ds`. -/
def Holds (p : Nat) (ds : List Byte) (m : Memory) : Prop := Memory.readList m p ds.length = ds

theorem holds_append {p : Nat} {ds ds' : List Byte} {m : Memory} :
    Holds p (ds ++ ds') m ↔ Holds p ds m ∧ Holds (p + ds.length) ds' m := by
  unfold Holds
  rw [List.length_append, Memory.readList_add]
  refine ⟨fun h => List.append_inj h (Memory.length_readList _ _ _), ?_⟩
  rintro ⟨h, h'⟩
  rw [h, h']

/-- Digits written after those that stand there. -/
theorem Holds.append {p : Nat} {ds : List Byte} {m : Memory} (h : Holds p ds m) (hm : Memory.wf m) (ds' : List Byte) :
    Holds p (ds ++ ds') (Memory.writeList m (p + ds.length) ds') := by
  refine holds_append.2 ⟨?before, ?written⟩
  case before =>
    refine Eq.trans (List.map_congr_left fun i hi => ?_) h
    exact Memory.read_writeList_outside hm _ _ (by have := List.mem_range.1 hi; omega)
  case written =>
    refine List.ext_getElem (Memory.length_readList _ _ _) fun i hi hi' => ?_
    rw [Memory.getElem_readList, Memory.read_writeList_inside hm _ _ hi']

theorem holds_nil (p : Nat) (m : Memory) : Holds p [] m := rfl

/-- A field of `w` decimal digits that spells a value of a register. -/
structure Spells (c : Config) (w : Nat) (f : List Byte) : Prop where
  length : f.length = w
  decimal : allDigits f = true
  fits : (fieldValue f : Int) ≤ c.maxN

/-- The digits `ds` have been written from index `p` up over the memory `m`, and DPTR stands after them. -/
structure Wrote (m : Memory) (p : Nat) (ds : List Byte) (s : State) : Prop where
  cells : s.dmem = Memory.writeList m p ds
  pointer : s.fieldStart = p + ds.length

/-- DPTR stands at the first of the digits `ds`, at index `p`. -/
structure Reading (p : Nat) (ds : List Byte) (s : State) : Prop where
  pointer : s.fieldStart = p
  cells : Holds p ds s.dmem

theorem wellFormed_of_width_ne_zero {w : BitVec 12} (hw : w ≠ 0) (r : Reg) :
    (Instr.denc r w).wellFormed = true ∧ (Instr.ddec r w).wellFormed = true := by
  simpa [Instr.wellFormed] using hw

section
variable {c : Config} {w : BitVec 12}

/-- R31: DPTR set to `p`, nothing is written yet. -/
theorem pointTo_wrote {p : Nat} (m : Memory) (hp : p ≤ c.dlen) :
    Ends c (fun s => s.dmem = m) (pointTo p) (.ok ()) (Wrote m p []) :=
  (pointTo_ends (M := (· = m)) hp).post fun _ ⟨hptr, hm⟩ => ⟨hm, hptr⟩

/-- R31: DPTR set to the first of some digits. -/
theorem pointTo_reading {p : Nat} {ds : List Byte} (hp : p ≤ c.dlen) :
    Ends c (fun s => Holds p ds s.dmem) (pointTo p) (.ok ()) (Reading p ds) :=
  (pointTo_ends (M := Holds p ds) hp).post fun _ ⟨hptr, hcells⟩ => ⟨hptr, hcells⟩

/-- One DENC of the value that the field `f` spells writes `f` (R151, R156). -/
theorem denc_ends {m : Memory} {p polls : Nat} {ds f : List Byte} (r : Reg) (hw : w ≠ 0) (hf : Spells c w.toNat f)
    (hfit : p + (ds ++ f).length ≤ c.dlen) :
    Ends c (fun s => Wrote m p ds s ∧ s.getN r = fieldValue f) (runCmd (.denc r w) polls) (.ok ())
      (Wrote m p (ds ++ f)) := by
  have hlen : (ds ++ f).length = ds.length + w.toNat := by rw [List.length_append, hf.length]
  have hdigits : digits (fieldValue f) w.toNat = f := hf.length ▸ digits_fieldValue hf.decimal
  refine runCmd_ends (wellFormed_of_width_ne_zero hw r).1 ?completes ?assigns
  case completes =>
    rintro s - rfl ⟨⟨-, hptr⟩, hv⟩
    have hlt := fieldValue_lt hf.decimal
    rw [hf.length] at hlt
    rw [faultOf_denc_eq_none_iff, hv, hptr]
    exact ⟨by omega, Int.natCast_nonneg _, by exact_mod_cast hlt⟩
  case assigns =>
    rintro s d h rfl ⟨⟨hcells, hptr⟩, hv⟩
    constructor
    · show Memory.writeList s.dmem s.fieldStart (digits (s.getN r).toNat w.toNat) = _
      rw [hv, Int.toNat_natCast, hdigits, hcells, hptr, Memory.writeList_append]
    · show (BitVec.ofNat 16 (s.fieldStart + w.toNat)).toNat = _
      rw [toNat_dptr_of_le_dlen h.inv.legal (by omega), hptr, hlen, Nat.add_assoc]

/-- R176: one DENC per value. -/
theorem encodeFields_ends {m : Memory} {p polls : Nat} (r : Reg) (hw : w ≠ 0) {fields : List (List Byte)}
    (hf : ∀ f ∈ fields, Spells c w.toNat f) (ds : List Byte) (hfit : p + (ds ++ fields.flatten).length ≤ c.dlen) :
    Ends c (Wrote m p ds) (encodeFields r polls w (fields.map fun f => (fieldValue f : Int))) (.ok ())
      (Wrote m p (ds ++ fields.flatten)) := by
  induction fields generalizing ds with
  | nil =>
    rw [List.flatten_nil, List.append_nil]
    exact .pure () fun _ hs => hs
  | cons f fields ih =>
    obtain ⟨hf, hfields⟩ := List.forall_mem_cons.1 hf
    rw [List.flatten_cons, ← List.append_assoc] at hfit ⊢
    have hfit1 : p + (ds ++ f).length ≤ c.dlen := by
      rw [List.length_append] at hfit
      omega
    have hload : Ends c (Wrote m p ds) (loadN r (fieldValue f)) (.ok ())
        (fun s => Wrote m p ds s ∧ s.getN r = fieldValue f) :=
      loadN_ends (Int.natCast_nonneg _) hf.fits fun s hs => ⟨⟨hs.cells, hs.pointer⟩, s.getN_setN_same r _⟩
    exact hload.bind ((denc_ends r hw hf hfit1).bind (ih hfields _ hfit))

/-- One DDEC of a field gives the value it spells, and moves DPTR to the next field (R154). -/
theorem ddec_ends {p polls : Nat} {ds f : List Byte} (r : Reg) (hw : w ≠ 0) (hf : Spells c w.toNat f)
    (hfit : p + f.length ≤ c.dlen) :
    Ends c (Reading p (f ++ ds)) (runCmd (.ddec r w) polls) (.ok ())
      (fun s => s.getN r = fieldValue f ∧ Reading (p + f.length) ds s) := by
  have hfield : ∀ s, Reading p (f ++ ds) s → s.field w.toNat = f := by
    rintro s ⟨hptr, hcells⟩
    rw [State.field, hptr, ← hf.length]
    exact (holds_append.1 hcells).1
  refine runCmd_ends (wellFormed_of_width_ne_zero hw r).2 ?completes ?assigns
  case completes =>
    rintro s - rfl hs
    have hdec : s.fieldDecimal w.toNat := (allDigits_field s _).1 (hfield s hs ▸ hf.decimal)
    rw [faultOf_ddec_eq_none_iff, ← State.fieldValue_field, hfield s hs, hs.pointer, ← hf.length]
    exact ⟨hfit, hf.length ▸ hdec, hf.fits⟩
  case assigns =>
    rintro s d h rfl hs
    refine ⟨?_, ?_, (holds_append.1 hs.cells).2⟩
    · show (s.setN r (fieldValue (s.field w.toNat))).getN r = _
      rw [State.getN_setN_same, hfield s hs]
    · show (BitVec.ofNat 16 (s.fieldStart + w.toNat)).toNat = _
      rw [hs.pointer, ← hf.length, toNat_dptr_of_le_dlen h.inv.legal hfit]

/-- R174: one DDEC per field. -/
theorem decodeFields_ends {p polls : Nat} (r : Reg) (hw : w ≠ 0) {fields : List (List Byte)}
    (hf : ∀ f ∈ fields, Spells c w.toNat f) (hfit : p + fields.flatten.length ≤ c.dlen) :
    Ends c (Reading p fields.flatten) (decodeFields r polls w fields.length)
      (.ok (fields.map fun f => (fieldValue f : Int))) Any := by
  induction fields generalizing p with
  | nil => exact .pure [] fun _ _ => trivial
  | cons f fields ih =>
    obtain ⟨hf, hfields⟩ := List.forall_mem_cons.1 hf
    rw [List.flatten_cons, List.length_append] at hfit
    have hfetch : Ends c (fun s => s.getN r = fieldValue f ∧ Reading (p + f.length) fields.flatten s) (fetchN r)
        (.ok (fieldValue f : Int)) (Reading (p + f.length) fields.flatten) :=
      fetchN_ends (fun _ hs => hs.1) fun _ _ hs => ⟨hs.2.pointer, hs.2.cells⟩
    exact (ddec_ends r hw hf (by omega)).bind
      (hfetch.bind ((ih hfields (by omega)).bind (.pure _ fun _ hs => hs)))

end

end Sys2Proof.Machine
end

section
/-! ENCODE_CHAR and ENCODE_MSG (R170, R171): a code point below 1000 is a field of three digits, and DENC of any other
faults. -/

namespace Sys2Proof.Machine

/-- R8: XLEN is at least 64. -/
theorem thousand_le_maxN {c : Config} (hc : c.Legal) : 1000 ≤ c.maxN := by
  obtain ⟨⟨-, hx, -⟩, -⟩ := hc
  have hpow : 2 ^ 63 ≤ 2 ^ (c.xlen - 1) := Nat.pow_le_pow_right (by norm_num) (by omega)
  unfold Config.maxN
  omega

theorem spells_digits_three {c : Config} (hc : c.Legal) {ch : Nat} (hch : ch < 1000) :
    Spells c 3 (digits ch 3) ∧ fieldValue (digits ch 3) = ch := by
  have hvalue : fieldValue (digits ch 3) = ch := fieldValue_digits hch
  have hmax := thousand_le_maxN hc
  exact ⟨⟨length_digits ch 3, allDigits_digits ch 3, by omega⟩, hvalue⟩

theorem digitString_cons (ch : Nat) (text : List Nat) : digitString (ch :: text) = digits ch 3 ++ digitString text :=
  List.flatMap_cons

section
variable {c : Config} {m : Memory} {p polls : Nat} {ds : List Byte} (r : Reg)

/-- LOADN of a code point that fits a register, in the middle of ENCODE_MSG. -/
theorem loadN_codePoint_ends {ch : Nat} (hch : (ch : Int) ≤ c.maxN) :
    Ends c (Wrote m p ds) (loadN r ch) (.ok ()) (fun s => Wrote m p ds s ∧ s.getN r = ch) :=
  loadN_ends (Int.natCast_nonneg _) hch fun s hs => ⟨⟨hs.cells, hs.pointer⟩, s.getN_setN_same r _⟩

/-- R170: a code point that fits a register goes to DENC. -/
theorem encodeChar_eq {s : State} {ch : Nat} (hch : (ch : Int) ≤ s.cfg.maxN) :
    encodeChar r polls ch s = (loadN r ch >>= fun _ => runCmd (.denc r 3) polls) s := by
  rw [encodeChar, get_bind, if_neg hch.not_gt]

theorem encodeChar_ends {ch : Nat} (hch : ch < 1000) (hfit : p + (ds ++ digits ch 3).length ≤ c.dlen) :
    Ends c (Wrote m p ds) (encodeChar r polls ch) (.ok ()) (Wrote m p (ds ++ digits ch 3)) := by
  rintro s h rfl hs
  have hmax := thousand_le_maxN h.inv.legal
  obtain ⟨hspells, hvalue⟩ := spells_digits_three h.inv.legal hch
  have hdenc := denc_ends (m := m) (polls := polls) r (w := 3) (by decide) hspells hfit
  rw [hvalue] at hdenc
  rw [encodeChar_eq r (by omega)]
  exact (loadN_codePoint_ends r (by omega)).bind hdenc s h rfl hs

/-- R170: a code point of 1000 or more aborts: by the procedure's own check, or by the fault ENCODING of DENC. -/
theorem encodeChar_aborts {ch : Nat} (hch : 1000 ≤ ch) (hfit : p + ds.length + 3 ≤ c.dlen) :
    Ends c (Wrote m p ds) (encodeChar r polls ch) (.error .encodingError) (Wrote m p ds) := by
  rintro s h rfl hs
  by_cases hmax : s.cfg.maxN < ch
  · refine ⟨s, ?_, h, rfl, hs⟩
    rw [encodeChar, get_bind, if_pos hmax]
    rfl
  · have hfault : Ends s.cfg (fun s => Wrote m p ds s ∧ s.getN r = ch) (runCmd (.denc r 3) polls)
        (.error .encodingError) (Wrote m p ds) := by
      refine runCmd_aborts (code := .encoding) rfl ?_ fun s v d hs => ⟨hs.1.cells, hs.1.pointer⟩
      rintro u - hcfg ⟨⟨-, hptr⟩, hv⟩
      have hout : u.fieldOutside 3 = false := State.fieldOutside_of_fits (by rw [hcfg, hptr]; exact hfit)
      simp [faultOf, hout, hv, hch]
    rw [encodeChar_eq r (not_lt.1 hmax)]
    exact (loadN_codePoint_ends r (not_lt.1 hmax)).bind hfault s h rfl hs

theorem encodeChars_ends {text : List Nat} (htext : ∀ ch ∈ text, ch < 1000)
    (hfit : p + (ds ++ digitString text).length ≤ c.dlen) :
    Ends c (Wrote m p ds) (encodeChars r polls text) (.ok ()) (Wrote m p (ds ++ digitString text)) := by
  induction text generalizing ds with
  | nil => exact .pure () fun s hs => (List.append_nil ds).symm ▸ hs
  | cons ch text ih =>
    obtain ⟨hch, htext⟩ := List.forall_mem_cons.1 htext
    rw [digitString_cons, ← List.append_assoc] at hfit ⊢
    exact (encodeChar_ends r hch (by rw [List.length_append] at hfit; omega)).bind (ih htext hfit)

/-- R171: the first code point of 1000 or more ends the message. -/
theorem encodeChars_aborts {before : List Nat} (after : List Nat) {ch : Nat} (hbefore : ∀ b ∈ before, b < 1000)
    (hch : 1000 ≤ ch) (hfit : p + (ds ++ digitString before).length + 3 ≤ c.dlen) :
    Ends c (Wrote m p ds) (encodeChars r polls (before ++ ch :: after)) (.error .encodingError)
      (Wrote m p (ds ++ digitString before)) := by
  induction before generalizing ds with
  | nil =>
    have hempty : ds ++ digitString [] = ds := List.append_nil ds
    rw [hempty] at hfit ⊢
    exact (encodeChar_aborts r hch hfit).abort
  | cons b before ih =>
    obtain ⟨hb, hbefore⟩ := List.forall_mem_cons.1 hbefore
    rw [digitString_cons, ← List.append_assoc] at hfit ⊢
    exact (encodeChar_ends r hb (by rw [List.length_append] at hfit; omega)).bind (ih hbefore hfit)

theorem encodeMsg_ends (m : Memory) {text : List Nat} (htext : ∀ ch ∈ text, ch < 1000)
    (hfit : p + (digitString text).length ≤ c.dlen) :
    Ends c (fun s => s.dmem = m) (encodeMsg r polls text p) (.ok ()) (Wrote m p (digitString text)) :=
  (pointTo_wrote m (by omega)).bind (encodeChars_ends r htext hfit)

theorem encodeMsg_aborts (m : Memory) {before : List Nat} (after : List Nat) {ch : Nat}
    (hbefore : ∀ b ∈ before, b < 1000) (hch : 1000 ≤ ch) (hfit : p + (digitString before).length + 3 ≤ c.dlen) :
    Ends c (fun s => s.dmem = m) (encodeMsg r polls (before ++ ch :: after) p) (.error .encodingError)
      (Wrote m p (digitString before)) :=
  (pointTo_wrote m (by omega)).bind (encodeChars_aborts r after hbefore hch hfit)

end

/-! What the cells hold afterwards -/

namespace Wrote

variable {s t : State} {p : Nat} {ds : List Byte}

theorem getCell_inside (h : Wrote s.dmem p ds t) (hs : s.Inv) {k : Nat} (hk : k < ds.length) :
    t.getCell (p + k) = ds.getD k 0 := by
  rw [State.getCell, h.cells, Memory.read_writeList_inside hs.cellsWf p ds hk, List.getD_eq_getElem _ _ hk]

theorem getCell_outside (h : Wrote s.dmem p ds t) (hs : s.Inv) {k : Nat} (hk : ¬(p ≤ k ∧ k < p + ds.length)) :
    t.getCell k = s.getCell k := by
  rw [State.getCell, h.cells, Memory.read_writeList_outside hs.cellsWf p ds hk, State.getCell]

end Wrote

/-- Settles O53: each character before the first of 1000 or more adds its three digits to those written. -/
theorem encodeMessage : Obligations.EncodeMessage := by
  unfold Obligations.EncodeMessage
  intro s nA polls hinv hb he
  have h : s.Ready := ⟨hinv, hb, he⟩
  refine ⟨fun text p0 htext hfit => ?message, fun before after ch p0 hbefore hch hfit => ?abort,
    fun ch hch hfit => ?char⟩
  case message =>
    rw [← length_digitString] at hfit ⊢
    obtain ⟨t, hrun, ht, hcfg, hw⟩ := encodeMsg_ends (polls := polls) nA s.dmem htext hfit s h rfl rfl
    exact ⟨t, hrun, ht.inv, ht.idle, ht.noFault, hcfg, fun k => hw.getCell_inside hinv,
      fun k => hw.getCell_outside hinv, hw.pointer⟩
  case abort =>
    rw [Nat.mul_succ, ← length_digitString, ← Nat.add_assoc] at hfit
    rw [← length_digitString]
    obtain ⟨t, hrun, -, -, hw⟩ := encodeMsg_aborts (polls := polls) nA s.dmem after hbefore hch hfit
      s h rfl rfl
    exact ⟨t, hrun, fun k => hw.getCell_inside hinv, fun k => hw.getCell_outside hinv, hw.pointer⟩
  case char =>
    obtain ⟨t, hrun, -, -, hw⟩ := encodeChar_aborts (polls := polls) (m := s.dmem) (ds := []) nA hch hfit s h rfl
      ⟨rfl, rfl⟩
    exact ⟨t, hrun, fun k => hw.getCell_outside hinv (by simp)⟩

end Sys2Proof.Machine
end

section
/-! KEYGEN (R179 to R181): what the sampling loop accepts, how it ends, and the key that is made of an accepted draw. -/

namespace Sys2Proof.Machine

/-- R179: what the loop asks of a candidate `e`: coprime to φ, and not degenerate where the guard is on. -/
def accepts (guard : Bool) (phi e : Int) : Bool :=
  decide ((xgcd e phi).g = 1) && !(guard && (e == 1 || e == phi - 1))

theorem accepts_iff {guard : Bool} {phi e : Int} :
    accepts guard phi e = true ↔ Int.gcd e phi = 1 ∧ (guard = true → e ≠ 1 ∧ e ≠ phi - 1) := by
  simp only [accepts, xgcd_g_eq_one_iff, Int.gcd]
  cases guard <;> simp

section
variable {c : Config} {P Q : State → Prop} {polls : Nat} {nE nP : Reg} {phi e : Int}

/-- R25: a procedure that goes on by CP, as STATUS shows it. -/
theorem status_ends {α : Type} {f : Word → HostM α} {r : Except HostAbort α} {b : Bool}
    (hP : ∀ s d, P s → P { s with hostData := d })
    (hf : ∀ status : Word, status.getLsbD 3 = b → Ends c P (f status) r Q) :
    Ends c (fun s => s.cp = b ∧ P s) (readReg 0x0004 >>= f) r Q := by
  rintro s h hc ⟨hcp, hs⟩
  have hbit : s.statusWord.getLsbD 3 = b := (getLsbD_statusWord s).2.2.trans hcp
  rw [bind_ok f (readReg_status s)]
  exact hf _ hbit _ (h.setHostData _) hc (hP s _ hs)

/-- One round of the loop: the candidate is loaded, and judged by CP (R124). -/
theorem sampleExponent_cons_ends {r : Except HostAbort Int} {cap : Option Nat} {guard : Bool} {draws : List Int}
    {attempts : Nat} (hne : nE ≠ nP) (he : 1 ≤ e) (hmax : e ≤ c.maxN)
    (hjudged : Ends c (fun s => s.getN nP = phi ∧ s.getN nE = e)
      (if accepts guard phi e then pure e
      else if cap = some (attempts + 1) then throw .attemptsExhausted
      else sampleExponent nE nP polls phi cap guard draws (attempts + 1)) r Q) :
    Ends c (fun s => s.getN nP = phi) (sampleExponent nE nP polls phi cap guard (e :: draws) attempts) r Q := by
  have hload : Ends c (fun s => s.getN nP = phi) (loadN nE e) (.ok ()) (fun s => s.getN nP = phi ∧ s.getN nE = e) :=
    loadN_ends (by omega) hmax fun s hs => ⟨(s.getN_setN_other e hne).trans hs, s.getN_setN_same nE e⟩
  have hrun : Ends c (fun s => s.getN nP = phi ∧ s.getN nE = e) (runCmd (.coprime nE nP) polls) (.ok ())
      (fun s => s.cp = decide ((xgcd e phi).g = 1) ∧ s.getN nP = phi ∧ s.getN nE = e) := by
    refine runCmd_ends rfl (fun _ _ _ _ => rfl) ?_
    rintro s d - - ⟨rfl, rfl⟩
    exact ⟨rfl, rfl, rfl⟩
  refine hload.bind (hrun.bind (status_ends (fun _ _ hs => hs) fun status hcp => ?_))
  rw [hcp]
  exact hjudged

/-- R179: the loop returns the draw it accepts, which is in nE then; or it aborts, without a cap only where it accepts
no draw. -/
theorem sampleExponent_ends (hne : nE ≠ nP) (cap : Option Nat) (guard : Bool) {draws : List Int}
    (hdraws : ∀ e ∈ draws, 1 ≤ e ∧ e ≤ c.maxN) (attempts : Nat) :
    (∃ e ∈ draws, accepts guard phi e = true ∧
      Ends c (fun s => s.getN nP = phi) (sampleExponent nE nP polls phi cap guard draws attempts) (.ok e)
        (fun s => s.getN nP = phi ∧ s.getN nE = e)) ∨
    ((cap = none → ∀ e ∈ draws, accepts guard phi e = false) ∧
      ∃ why, Ends c (fun s => s.getN nP = phi) (sampleExponent nE nP polls phi cap guard draws attempts) (.error why)
        Any) := by
  induction draws generalizing attempts with
  | nil => exact .inr ⟨fun _ _ he => (List.not_mem_nil he).elim, _, .throw _ fun _ _ => trivial⟩
  | cons e draws ih =>
    obtain ⟨⟨he, hmax⟩, hdraws⟩ := List.forall_mem_cons.1 hdraws
    by_cases hacc : accepts guard phi e = true
    · refine .inl ⟨e, List.mem_cons_self, hacc, sampleExponent_cons_ends hne he hmax ?_⟩
      rw [if_pos hacc]
      exact .pure e fun _ hs => hs
    by_cases hcap : cap = some (attempts + 1)
    · refine .inr ⟨fun hnone => ?_, .attemptsExhausted, sampleExponent_cons_ends hne he hmax ?_⟩
      · cases hcap.symm.trans hnone
      · rw [if_neg hacc, if_pos hcap]
        exact .throw _ fun _ _ => trivial
    have hnext : ∀ {r Q}, Ends c (fun s => s.getN nP = phi)
        (sampleExponent nE nP polls phi cap guard draws (attempts + 1)) r Q →
        Ends c (fun s => s.getN nP = phi) (sampleExponent nE nP polls phi cap guard (e :: draws) attempts) r Q := by
      intro r Q hrest
      refine sampleExponent_cons_ends hne he hmax ?_
      rw [if_neg hacc, if_neg hcap]
      exact hrest.pre fun _ hs => hs.1
    rcases ih hdraws (attempts + 1) with ⟨e', he', hacc', hrest⟩ | ⟨hnone, why, hrest⟩
    · exact .inl ⟨e', List.mem_cons_of_mem e he', hacc', hnext hrest⟩
    · exact .inr ⟨fun hcap => List.forall_mem_cons.2 ⟨Bool.eq_false_iff.2 hacc, hnone hcap⟩, why, hnext hrest⟩

/-- R126, R179: the exponent `d` that MODINV makes of an accepted draw. -/
theorem modinv_ends (nD : Reg) (hphi : 0 < phi) (hg : (xgcd e phi).g = 1) :
    Ends c (fun s => s.getN nP = phi ∧ s.getN nE = e) (runCmd (.modinv nD nE nP) polls) (.ok ())
      (fun s => s.getN nD = (xgcd e phi).x % phi) := by
  refine runCmd_ends rfl ?completes ?assigns
  case completes =>
    rintro s - - ⟨rfl, rfl⟩
    simp [faultOf, hphi, hg]
  case assigns =>
    rintro s d - - ⟨rfl, rfl⟩
    exact s.getN_setN_same nD _

end

section
variable {c : Config} {polls : Nat} {nD nE nP : Reg} {p q phi e : Int} {draws : List Int} {cap : Option Nat}
  {guard : Bool}

/-- R179: KEYGEN after a draw is accepted. -/
theorem keygen_ends (hphi : (p - 1) * (q - 1) = phi) (hpos : 0 < phi) (hmax : phi ≤ c.maxN) (hg : (xgcd e phi).g = 1)
    (hsample : Ends c (fun s => s.getN nP = phi) (sampleExponent nE nP polls phi cap guard draws 0) (.ok e)
      (fun s => s.getN nP = phi ∧ s.getN nE = e)) :
    Ends c Any (keygen nD nE nP polls p q draws cap guard) (.ok (⟨p * q, e⟩, ⟨p * q, (xgcd e phi).x % phi⟩))
      (fun s => s.getN nP = 0) := by
  subst hphi
  have hwipe := loadN_value_ends (c := c) (P := Any) nP le_rfl (hpos.le.trans hmax)
  exact (loadN_value_ends nP hpos.le hmax).bind
    (hsample.bind ((modinv_ends nD hpos hg).bind ((fetchN_value_ends nD).bind (hwipe.bind (.pure _ fun _ hs => hs)))))

theorem keygen_aborts {why : HostAbort} (hphi : (p - 1) * (q - 1) = phi) (hpos : 0 < phi) (hmax : phi ≤ c.maxN)
    (hsample : Ends c (fun s => s.getN nP = phi) (sampleExponent nE nP polls phi cap guard draws 0) (.error why) Any) :
    Ends c Any (keygen nD nE nP polls p q draws cap guard) (.error why) Any := by
  subst hphi
  exact (loadN_value_ends nP hpos.le hmax).bind hsample.abort

end

/-- Settles O56: KEYGEN ends as its sampling loop does, and Bézout's identity makes `d` an inverse of the draw. -/
theorem keygenGivesValidKeys : Obligations.KeygenGivesValidKeys := by
  unfold Obligations.KeygenGivesValidKeys
  intro s nD nE nP polls p q draws cap guard hinv hb he hne _ _ hone hmax hdraws
  generalize hphi : (p - 1) * (q - 1) = phi at *
  have h : s.Ready := ⟨hinv, hb, he⟩
  have hpos : 0 < phi := one_pos.trans hone
  have hrange : ∀ e ∈ draws, 1 ≤ e ∧ e ≤ s.cfg.maxN := fun e hm => (hdraws e hm).imp_right fun hlt => hlt.le.trans hmax
  rcases sampleExponent_ends (c := s.cfg) (polls := polls) (phi := phi) hne cap guard hrange 0 with
    ⟨e, hm, hacc, hsample⟩ | ⟨hnone, why, hsample⟩
  · obtain ⟨hgcd, hguard⟩ := accepts_iff.1 hacc
    have hg : (xgcd e phi).g = 1 := (xgcd_g_eq_one_iff _ _).2 hgcd
    have hinverse : (xgcd e phi).x % phi * e % phi = 1 :=
      emod_mul_emod_of_identity ((xgcd_identity e phi).trans hg) hone
    obtain ⟨t, hrun, -, -, hwiped⟩ := keygen_ends (nD := nD) hphi hpos hmax hg hsample s h rfl trivial
    refine ⟨fun pub priv t' hrun' => ?_, fun _ _ _ => ⟨_, t, hrun⟩⟩
    cases hrun.symm.trans hrun'
    exact ⟨rfl, rfl, hm, hgcd, Int.emod_nonneg _ hpos.ne', Int.emod_lt_of_pos _ hpos,
      by rwa [mul_comm], hwiped, hguard⟩
  · obtain ⟨t, hrun, -⟩ := keygen_aborts (nD := nD) hphi hpos hmax hsample s h rfl trivial
    refine ⟨fun pub priv t' hrun' => ?_, fun hcap hguard ⟨e, hm, hgcd⟩ => ?_⟩
    · cases hrun.symm.trans hrun'
    · have hacc : accepts guard phi e = true := accepts_iff.2 ⟨hgcd, by simp [hguard]⟩
      cases hacc.symm.trans (hnone hcap e hm)

end Sys2Proof.Machine
end

section
/-! Cells that the host reads and writes one at a time, by the read, replace and write back of a word (R58, R227). -/

namespace Sys2Proof.Machine

theorem toNat_lane (v : Word) (k : Nat) : (lane v k).toNat = v.toNat / 2 ^ (8 * k) % 256 := by
  rw [lane, BitVec.extractLsb'_toNat, Nat.shiftRight_eq_div_pow]

/-- R58: the lane replaced, and the other three as they were; lane by lane, linear arithmetic in the quotients of the
word by the powers of 256. -/
theorem lane_putLane (v : Word) (d : Byte) {j k : Nat} (hj : j < 4) (hk : k < 4) :
    lane (putLane v k d) j = if j = k then d else lane v j := by
  have hv := v.isLt
  have hd := d.isLt
  apply BitVec.eq_of_toNat_eq
  rw [apply_ite BitVec.toNat, toNat_lane, toNat_lane, putLane, BitVec.toNat_ofNat]
  split
  · next heq =>
    subst heq
    interval_cases j <;> simp only [Nat.reduceMul, Nat.reduceAdd, Nat.reducePow] <;> omega
  · next hne =>
    interval_cases j <;> interval_cases k <;> simp only [Nat.reduceMul, Nat.reduceAdd, Nat.reducePow] <;> omega

/-- R58: the cell's word with the cell's lane replaced, written back, changes the cell only. -/
theorem State.writeDWord_putLane {s : State} (hm : Memory.wf s.dmem) {k : Nat} (hk : k / 4 < s.cfg.dWords) (d : Byte) :
    s.writeDWord (k / 4) (putLane (s.readDWord (k / 4)) (k % 4) d) = s.setCells k [d] := by
  have hcells : ∀ j, (s.writeDWord (k / 4) (putLane (s.readDWord (k / 4)) (k % 4) d)).getCell j =
      (s.setCells k [d]).getCell j := fun j => by
    have hset : (s.setCells k [d]).getCell j = if k = j then d else s.getCell j := Memory.read_write hm k j d
    rw [hset]
    by_cases hj : j / 4 = k / 4
    · have hsplit : j = 4 * (k / 4) + j % 4 := by omega
      have hlt : j % 4 < 4 := Nat.mod_lt j (by norm_num)
      have hsame : j % 4 = k % 4 ↔ k = j := by omega
      conv_lhs => rw [hsplit]
      rw [getCell_writeDWord_inside hm _ _ hlt, lane_putLane _ _ hlt (Nat.mod_lt k (by norm_num)),
        lane_readDWord hk hlt, ← hsplit]
      simp only [hsame]
    · rw [getCell_writeDWord_outside hm _ _ (by omega), if_neg (by rintro rfl; exact hj rfl)]
  exact congrArg (fun m => { s with dmem := m })
    (Memory.ext_of_wf (Memory.wf_writeList hm _ _) (Memory.wf_writeList hm _ _) hcells)

namespace State.Ready

variable {s : State} {k : Nat}

/-- R8, R58: a cell of DMEM lies in an implemented word of the window. -/
theorem word_of_cell (h : s.Ready) (hk : k < s.cfg.dlen) : k / 4 < s.cfg.dWords ∧ k / 4 < 4096 := by
  obtain ⟨-, h4, -, hdlen⟩ := h.inv.legal
  unfold Config.dWords
  omega

theorem readReg_dWord (h : s.Ready) (hk : k < s.cfg.dlen) :
    readReg (dWordAddr (k / 4)) s = .ok (s.readDWord (k / 4)) { s with hostData := s.readDWord (k / 4) } :=
  readReg_ok s (portLoc_dWordAddr _ (h.word_of_cell hk).2)

theorem writeReg_dWord (h : s.Ready) (hk : k < s.cfg.dlen) (v : Word) :
    writeReg (dWordAddr (k / 4)) v s = .ok () (s.writeDWord (k / 4) v) := by
  obtain ⟨hw, hw4096⟩ := h.word_of_cell hk
  rw [writeReg_ok v s (portLoc_dWordAddr _ hw4096), State.writeLoc_dWord_of_idle h.idle hw]

theorem pokeCell_eq (h : s.Ready) (hk : k < s.cfg.dlen) (d : Byte) :
    pokeCell k d s = .ok () { s.setCells k [d] with hostData := s.readDWord (k / 4) } := by
  rw [pokeCell, bind_ok _ (h.readReg_dWord hk), (h.setHostData (s.readDWord (k / 4))).writeReg_dWord hk,
    ← State.writeDWord_putLane h.inv.cellsWf (h.word_of_cell hk).1]
  rfl

theorem peekCell_eq (h : s.Ready) (hk : k < s.cfg.dlen) :
    peekCell k s = .ok (s.getCell k) { s with hostData := s.readDWord (k / 4) } := by
  have hlane := State.lane_readDWord (h.word_of_cell hk).1 (Nat.mod_lt k (by norm_num : 0 < 4))
  rw [Nat.div_add_mod] at hlane
  rw [peekCell, bind_ok _ (h.readReg_dWord hk), ← hlane]
  rfl

end State.Ready

section
variable {c : Config} {p : Nat}

theorem pokeCells_ends (ds ds' : List Byte) (hfit : p + (ds ++ ds').length ≤ c.dlen) :
    Ends c (fun s => Holds p ds s.dmem) (pokeCells (p + ds.length) ds') (.ok ())
      (fun s => Holds p (ds ++ ds') s.dmem) := by
  induction ds' generalizing ds with
  | nil => exact .pure () fun s hs => (List.append_nil ds).symm ▸ hs
  | cons d ds' ih =>
    rw [List.append_cons] at hfit ⊢
    have hk : p + ds.length < c.dlen := by
      simp only [List.length_append, List.length_singleton] at hfit
      omega
    have hpoke : Ends c (fun s => Holds p ds s.dmem) (pokeCell (p + ds.length) d) (.ok ())
        (fun s => Holds p (ds ++ [d]) s.dmem) := by
      rintro s h rfl hs
      exact ⟨_, h.pokeCell_eq hk d, (h.setCells hk).setHostData _, rfl, hs.append h.inv.cellsWf [d]⟩
    have hrest := ih (ds ++ [d]) hfit
    rw [List.length_append, List.length_singleton, ← Nat.add_assoc] at hrest
    exact hpoke.bind hrest

theorem peekCells_ends (ds : List Byte) (hfit : p + ds.length ≤ c.dlen) :
    Ends c (fun s => Holds p ds s.dmem) (peekCells p ds.length) (.ok ds) Any := by
  induction ds generalizing p with
  | nil => exact .pure [] fun _ _ => trivial
  | cons d ds ih =>
    rw [List.length_cons] at hfit
    have hpeek : Ends c (fun s => Holds p (d :: ds) s.dmem) (peekCell p) (.ok d)
        (fun s => Holds (p + 1) ds s.dmem) := by
      rintro s h rfl hs
      obtain ⟨hcell, hrest⟩ := (holds_append (ds := [d])).1 hs
      have hd : s.getCell p = d := List.singleton_injective hcell
      have hread := h.peekCell_eq (k := p) (by omega)
      rw [hd] at hread
      exact ⟨_, hread, h.setHostData _, rfl, hrest⟩
    exact hpeek.bind ((ih (by omega)).bind (.pure _ fun _ hs => hs))

end

end Sys2Proof.Machine
end

section
/-! The parts of the public operations (R171 to R177), each by what DMEM holds before and after it. -/

namespace Sys2Proof.Machine

/-! The fields of a message: three digits a character, and blocks of block_len digits -/

theorem allDigits_iff {ds : List Byte} : allDigits ds = true ↔ ∀ d ∈ ds, d.toNat ≤ 9 := by
  simp [allDigits]

theorem length_of_mem_slices {w count : Nat} {ds f : List Byte} (hlen : count * w ≤ ds.length)
    (hf : f ∈ slices w count ds) : f.length = w := by
  induction count generalizing ds with
  | zero => cases hf
  | succ count ih =>
    rw [Nat.succ_mul] at hlen
    rcases List.mem_cons.1 hf with rfl | hf
    · exact List.length_take_of_le (by omega)
    · exact ih (by rw [List.length_drop]; omega) hf

/-- R171: the characters' fields are the first slices of three. -/
theorem slices_digitString (text : List Nat) (ds : List Byte) :
    slices 3 text.length (digitString text ++ ds) = text.map (digits · 3) := by
  induction text with
  | nil => rfl
  | cons ch text ih =>
    have hlen := length_digits ch 3
    rw [List.length_cons, slices, digitString_cons, List.append_assoc, List.take_left' hlen, List.drop_left' hlen, ih,
      List.map_cons]

theorem flatten_map_digits (text : List Nat) : (text.map (digits · 3)).flatten = digitString text :=
  List.flatMap_def.symm

theorem length_blocksOf (text : List Nat) (blockLen : Nat) (pads : Nat → Byte) :
    (blocksOf text blockLen pads).length = numBlocks (3 * text.length) blockLen := by
  rw [blocksOf, length_slices, length_digitString]

/-- R175: the blocks are made of all the digits and all the padding. -/
theorem flatten_blocksOf (text : List Nat) {blockLen : Nat} (h : 1 ≤ blockLen) (pads : Nat → Byte) :
    (blocksOf text blockLen pads).flatten =
      digitString text ++ paddingDigits (digitString text).length blockLen pads := by
  rw [blocksOf, flatten_slices, List.take_of_length_le]
  rw [List.length_append, length_paddingDigits, (numBlocks_mul _ h).1]

theorem length_flatten_blocksOf (text : List Nat) {blockLen : Nat} (h : 1 ≤ blockLen) (pads : Nat → Byte) :
    (blocksOf text blockLen pads).flatten.length = numBlocks (3 * text.length) blockLen * blockLen := by
  rw [flatten_blocksOf text h, List.length_append, length_paddingDigits, length_digitString, (numBlocks_mul _ h).1]

/-- A message that a key of modulus `n` can carry, cut into blocks of `blockLen` digits (R182). -/
structure Carries (c : Config) (n blockLen : Nat) (text : List Nat) (pads : Nat → Byte) : Prop where
  pos : 1 ≤ blockLen
  width : blockLen ≤ 4095
  codePoints : ∀ ch ∈ text, ch < 1000
  padding : ∀ i, (pads i).toNat ≤ 9
  below : ∀ b ∈ blocksOf text blockLen pads, fieldValue b < n
  modulus : (n : Int) ≤ c.maxN

namespace Carries

variable {c : Config} {n blockLen : Nat} {text : List Nat} {pads : Nat → Byte}

/-- R173: block_len is a WIDTH. -/
theorem toNat_width (h : Carries c n blockLen text pads) : (BitVec.ofNat 12 blockLen).toNat = blockLen := by
  have hwidth := h.width
  rw [BitVec.toNat_ofNat, Nat.mod_eq_of_lt (by omega)]

theorem width_ne_zero (h : Carries c n blockLen text pads) : BitVec.ofNat 12 blockLen ≠ 0 := by
  intro hzero
  have hwidth : 0 = blockLen := (congrArg BitVec.toNat hzero).symm.trans h.toNat_width
  exact Nat.ne_of_lt h.pos hwidth

/-- R174: every block is a field of digits that spells a value of a register. -/
theorem spells_block (h : Carries c n blockLen text pads) :
    ∀ b ∈ blocksOf text blockLen pads, Spells c (BitVec.ofNat 12 blockLen).toNat b := by
  intro b hb
  rw [h.toNat_width]
  refine ⟨length_of_mem_slices ?_ hb, allDigits_iff.2 fun d hd => ?_, ?_⟩
  · rw [List.length_append, length_paddingDigits, (numBlocks_mul _ h.pos).1]
  · have hmem : d ∈ (blocksOf text blockLen pads).flatten := List.mem_flatten.2 ⟨b, hb, hd⟩
    rw [flatten_blocksOf text h.pos, List.mem_append] at hmem
    rcases hmem with hdigit | hpad
    · obtain ⟨ch, -, hch⟩ := List.mem_flatMap.1 hdigit
      exact allDigits_iff.1 (allDigits_digits ch 3) d hch
    · obtain ⟨i, -, rfl⟩ := List.mem_map.1 hpad
      exact h.padding i
  · have hlt := h.below b hb
    have hmax := h.modulus
    omega

end Carries

/-- R170: the characters' fields, and the code points that they spell. -/
theorem spells_characters {c : Config} (hc : c.Legal) {text : List Nat} (htext : ∀ ch ∈ text, ch < 1000) :
    (∀ f ∈ text.map (digits · 3), Spells c 3 f) ∧
      (text.map (digits · 3)).map (fun f => (fieldValue f : Int)) = text.map Int.ofNat := by
  refine ⟨fun f hf => ?_, ?_⟩
  · obtain ⟨ch, hch, rfl⟩ := List.mem_map.1 hf
    exact (spells_digits_three hc (htext ch hch)).1
  · rw [List.map_map]
    exact List.map_congr_left fun ch hch => congrArg Int.ofNat (spells_digits_three hc (htext ch hch)).2

theorem Wrote.holds {m : Memory} {p : Nat} {ds : List Byte} {s : State} (h : Wrote m p ds s) (hm : Memory.wf m) :
    Holds p ds s.dmem :=
  h.cells ▸ (holds_nil p m).append hm ds

section
variable {c : Config} {n blockLen p polls : Nat} {text : List Nat} {pads : Nat → Byte} (r : Reg)

theorem encodeMsg_holds (htext : ∀ ch ∈ text, ch < 1000) (hfit : p + (digitString text).length ≤ c.dlen) :
    Ends c Any (encodeMsg r polls text p) (.ok ()) (fun s => Holds p (digitString text) s.dmem) :=
  .of_memory fun m hm => (encodeMsg_ends r m htext hfit).post fun _ hs => hs.holds hm

theorem checkBlockLen_ends {P : State → Prop} (h1 : 1 ≤ blockLen) (h2 : blockLen ≤ 4095) :
    Ends c P (checkBlockLen blockLen) (.ok ()) P := by
  rw [checkBlockLen, if_neg (by omega)]
  exact .pure () fun _ hs => hs

theorem checkGrouping_ends {P : State → Prop} (length padding : Nat) :
    Ends c P (checkGrouping (3 * length + padding) padding) (.ok ()) P := by
  rw [checkGrouping, if_neg (by omega)]
  exact .pure () fun _ hs => hs

/-- DPTR set to the first of some fields, and one DDEC for each. -/
theorem decodeAt_ends {w : BitVec 12} (hw : w ≠ 0) {fields : List (List Byte)} (hf : ∀ f ∈ fields, Spells c w.toNat f)
    (hfit : p + fields.flatten.length ≤ c.dlen) :
    Ends c (fun s => Holds p fields.flatten s.dmem) (pointTo p >>= fun _ => decodeFields r polls w fields.length)
      (.ok (fields.map fun f => (fieldValue f : Int))) Any :=
  (pointTo_reading (by omega)).bind (decodeFields_ends r hw hf hfit)

/-- R172: DECODE_MSG of the digits of a text, whatever stands after them. -/
theorem decodeMsg_ends (htext : ∀ ch ∈ text, ch < 1000) (padding : Nat) (hfit : p + 3 * text.length ≤ c.dlen) :
    Ends c (fun s => Holds p (digitString text) s.dmem)
      (decodeMsg r polls (3 * text.length + padding) padding p) (.ok (text.map Int.ofNat)) Any := by
  refine .of_legal fun hc => ?_
  obtain ⟨hspells, hvalues⟩ := spells_characters hc htext
  have hcount : (3 * text.length + padding - padding) / 3 = (text.map (digits · 3)).length := by
    rw [List.length_map]
    omega
  have hdecode := decodeAt_ends (polls := polls) (p := p) r (w := 3) (by decide) hspells
    (by rwa [flatten_map_digits, length_digitString])
  rw [flatten_map_digits, hvalues, ← hcount] at hdecode
  exact (checkGrouping_ends text.length padding).bind hdecode

/-- R174: CHUNK of a text's digits, after which the host draws its padding. -/
theorem chunk_ends (h : Carries c n blockLen text pads)
    (hfit : p + numBlocks (3 * text.length) blockLen * blockLen ≤ c.dlen) :
    Ends c (fun s => Holds p (digitString text) s.dmem) (chunk r polls (3 * text.length) blockLen p pads)
      (.ok ((blocksOf text blockLen pads).map fun b => (fieldValue b : Int))) Any := by
  have hflat := flatten_blocksOf text h.pos pads
  have hlen := length_flatten_blocksOf text h.pos pads
  have hpoke := pokeCells_ends (c := c) (p := p) (digitString text)
    (paddingDigits (digitString text).length blockLen pads) (by rwa [← hflat, hlen])
  have hdecode := decodeAt_ends (polls := polls) (p := p) r h.width_ne_zero h.spells_block (by rwa [hlen])
  rw [← hflat, length_digitString] at hpoke
  rw [length_blocksOf] at hdecode
  exact (checkBlockLen_ends h.pos h.width).bind (hpoke.bind hdecode)

/-- R176: REASSEMBLE of the values that some fields of block_len digits spell writes the fields. -/
theorem reassemble_ends (h : Carries c n blockLen text pads) {fields : List (List Byte)}
    (hf : ∀ f ∈ fields, Spells c (BitVec.ofNat 12 blockLen).toNat f) (hfit : p + fields.flatten.length ≤ c.dlen) :
    Ends c Any (reassemble r polls (fields.map fun f => (fieldValue f : Int)) blockLen p) (.ok ())
      (fun s => Holds p fields.flatten s.dmem) :=
  .of_memory fun m hm => ((checkBlockLen_ends h.pos h.width).bind ((pointTo_wrote m (by omega)).bind
    (encodeFields_ends r h.width_ne_zero hf [] hfit))).post fun _ hs => hs.holds hm

end

/-! ENCRYPT and DECRYPT over blocks (R177) -/

/-- The modulus and the exponent of a key stand in their registers. -/
structure Keyed (l : Layout) (n e : Nat) (s : State) : Prop where
  modulus : s.getN l.modulus = n
  exponent : s.getN l.exponent = e

section
variable {c : Config} {l : Layout} {n e polls : Nat}

theorem Keyed.setN {s : State} (h : Keyed l n e s) {r : Reg} (hm : r ≠ l.modulus) (he : r ≠ l.exponent) (v : Int) :
    Keyed l n e (s.setN r v) :=
  ⟨(s.getN_setN_other v hm).trans h.modulus, (s.getN_setN_other v he).trans h.exponent⟩

theorem modexp_ends (hl : l.distinct) (hn : 0 < n) (b : Nat) :
    Ends c (fun s => Keyed l n e s ∧ s.getN l.block = b) (runCmd (.modexp l.result l.block l.exponent l.modulus) polls)
      (.ok ()) (fun s => Keyed l n e s ∧ s.getN l.result = (b ^ e % n : Nat)) := by
  obtain ⟨-, -, -, hre, hrm⟩ := hl
  refine runCmd_ends rfl ?completes ?assigns
  case completes =>
    rintro s - - ⟨hkey, hb⟩
    simp [faultOf, hkey.modulus, hkey.exponent, hb, hn.ne']
  case assigns =>
    rintro s d - - ⟨hkey, hb⟩
    have hassigned : assigned s (.modexp l.result l.block l.exponent l.modulus) =
        s.setN l.result (b ^ e % n : Nat) := by
      rw [assigned, hkey.modulus, hkey.exponent, hb]
      simp only [Int.toNat_natCast, modexp_eq]
    rw [hassigned]
    have hkey' := hkey.setN hrm hre (b ^ e % n : Nat)
    exact ⟨⟨hkey'.modulus, hkey'.exponent⟩, s.getN_setN_same l.result _⟩

/-- R177: each element goes through MODEXP, with the key left in place. -/
theorem cipherBlocks_ends {α : Type} (hl : l.distinct) (hn : 0 < n) (f : α → Nat) {xs : List α}
    (hmax : ∀ x ∈ xs, (f x : Int) ≤ c.maxN) :
    Ends c (Keyed l n e) (cipherBlocks l polls (xs.map fun x => (f x : Int)))
      (.ok (xs.map fun x => ((f x ^ e % n : Nat) : Int))) Any := by
  induction xs with
  | nil => exact .pure [] fun _ _ => trivial
  | cons x xs ih =>
    obtain ⟨hx, hxs⟩ := List.forall_mem_cons.1 hmax
    obtain ⟨-, hbe, hbm, -, -⟩ := id hl
    have hload : Ends c (Keyed l n e) (loadN l.block (f x)) (.ok ()) (fun s => Keyed l n e s ∧ s.getN l.block = f x) :=
      loadN_ends (Int.natCast_nonneg _) hx fun s hs => ⟨hs.setN hbm hbe _, s.getN_setN_same _ _⟩
    have hfetch : Ends c (fun s => Keyed l n e s ∧ s.getN l.result = (f x ^ e % n : Nat)) (fetchN l.result)
        (.ok ((f x ^ e % n : Nat) : Int)) (Keyed l n e) :=
      fetchN_ends (fun _ hs => hs.2) fun _ _ hs => ⟨hs.1.modulus, hs.1.exponent⟩
    exact hload.bind ((modexp_ends hl hn (f x)).bind (hfetch.bind ((ih hxs).bind (.pure _ fun _ hs => hs))))

theorem cipher_ends {α : Type} (hl : l.distinct) (hn : 0 < n) (hnmax : (n : Int) ≤ c.maxN) (hemax : (e : Int) ≤ c.maxN)
    (f : α → Nat) {xs : List α} (hmax : ∀ x ∈ xs, (f x : Int) ≤ c.maxN) :
    Ends c Any (cipher l polls ⟨n, e⟩ (xs.map fun x => (f x : Int)))
      (.ok (xs.map fun x => ((f x ^ e % n : Nat) : Int))) Any := by
  have hexponent : Ends c (fun s => s.getN l.modulus = n) (loadN l.exponent e) (.ok ()) (Keyed l n e) :=
    loadN_ends (Int.natCast_nonneg _) hemax fun s hs =>
      ⟨(s.getN_setN_other _ hl.1.symm).trans hs, s.getN_setN_same _ _⟩
  exact (loadN_value_ends l.modulus (Int.natCast_nonneg n) hnmax).bind
    (hexponent.bind (cipherBlocks_ends hl hn f hmax))

namespace KeyInvariant

variable {p q d : Nat}

theorem modulus_pos (h : KeyInvariant p q n e d) : 0 < n :=
  h.modulus ▸ Nat.mul_pos h.primeP.pos h.primeQ.pos

/-- R167: the exponent `d` is below φ, so below the modulus. -/
theorem exponent_lt (h : KeyInvariant p q n e d) : d < n :=
  h.modulus ▸ h.below.trans_le (Nat.mul_le_mul (Nat.sub_le p 1) (Nat.sub_le q 1))

end KeyInvariant

/-- R182: DECRYPT gives back the blocks that ENCRYPT was given. -/
theorem cipher_decrypts {p q d : Nat} (hl : l.distinct) (hkey : KeyInvariant p q n e d) (hpq : p ≠ q)
    (hnmax : (n : Int) ≤ c.maxN) {blocks : List (List Byte)} (hblocks : ∀ b ∈ blocks, fieldValue b < n) :
    Ends c Any (cipher l polls ⟨n, d⟩ (blocks.map fun b => ((fieldValue b ^ e % n : Nat) : Int)))
      (.ok (blocks.map fun b => (fieldValue b : Int))) Any := by
  have hn := hkey.modulus_pos
  have hd : (d : Int) ≤ c.maxN := le_trans (by exact_mod_cast hkey.exponent_lt.le) hnmax
  have hcipher := cipher_ends (polls := polls) hl hn hnmax hd (fun b => fieldValue b ^ e % n) (xs := blocks)
    fun b _ => le_trans (by exact_mod_cast (Nat.mod_lt _ hn).le) hnmax
  have hback : (blocks.map fun b => (((fieldValue b ^ e % n) ^ d % n : Nat) : Int)) =
      blocks.map fun b => (fieldValue b : Int) :=
    List.map_congr_left fun b hb => congrArg Nat.cast (hkey.pow_mod_pow_mod hpq (hblocks b hb))
  rwa [hback] at hcipher

end

end Sys2Proof.Machine
end

section
/-! The public operations encrypt and decrypt with the message in DMEM (R178), and their round trip (R182, R183). -/

namespace Sys2Proof.Machine

section
variable {c : Config} {l : Layout} {polls p q n e d blockLen p0 : Nat} {text : List Nat} {pads : Nat → Byte}

/-- R178: the ciphertext is the power of each block, with CHUNK's padding count. -/
theorem encryptText_ends (hl : l.distinct) (hn : 0 < n) (hemax : (e : Int) ≤ c.maxN)
    (h : Carries c n blockLen text pads) (hfit : p0 + numBlocks (3 * text.length) blockLen * blockLen ≤ c.dlen) :
    Ends c Any (encryptText l polls text ⟨n, e⟩ blockLen p0 pads)
      (.ok ((blocksOf text blockLen pads).map fun b => ((fieldValue b ^ e % n : Nat) : Int),
        paddingCount (3 * text.length) blockLen)) Any := by
  have hdigits : p0 + (digitString text).length ≤ c.dlen := by
    have hblocks := (numBlocks_mul (3 * text.length) h.pos).1
    rw [length_digitString]
    omega
  have hcipher := cipher_ends (polls := polls) hl hn h.modulus hemax fieldValue (xs := blocksOf text blockLen pads)
    fun b hb => (h.spells_block b hb).fits
  exact (encodeMsg_holds l.code h.codePoints hdigits).bind
    ((chunk_ends l.block h hfit).bind (hcipher.bind (.pure _ fun _ hs => hs)))

/-- R182: decrypting that returns the text. -/
theorem decryptText_ends (hl : l.distinct) (hkey : KeyInvariant p q n e d) (hpq : p ≠ q)
    (h : Carries c n blockLen text pads) (hfit : p0 + numBlocks (3 * text.length) blockLen * blockLen ≤ c.dlen) :
    Ends c Any (decryptText l polls ((blocksOf text blockLen pads).map fun b => ((fieldValue b ^ e % n : Nat) : Int))
        ⟨n, d⟩ (paddingCount (3 * text.length) blockLen) blockLen p0)
      (.ok (text.map Int.ofNat)) Any := by
  have hflat := flatten_blocksOf text h.pos pads
  have hnum := (numBlocks_mul (3 * text.length) h.pos).1
  have hlen := length_flatten_blocksOf text h.pos pads
  have hwritten := (reassemble_ends (polls := polls) (p := p0) l.block h h.spells_block (by rwa [hlen])).post
    (Q' := fun s => Holds p0 (digitString text) s.dmem) fun s hs => (holds_append.1 (hflat ▸ hs)).1
  have hdecode := decodeMsg_ends (c := c) (p := p0) (polls := polls) l.code h.codePoints
    (paddingCount (3 * text.length) blockLen) (by omega)
  have hcount : ((blocksOf text blockLen pads).map fun b => ((fieldValue b ^ e % n : Nat) : Int)).length * blockLen =
      3 * text.length + paddingCount (3 * text.length) blockLen := by
    rw [List.length_map, length_blocksOf, hnum]
  rw [← hcount] at hdecode
  exact (cipher_decrypts hl hkey hpq h.modulus h.below).bind (hwritten.bind hdecode)

end

/-- Settles O57: encryption ends in a ready state with the powers of the blocks, from which decryption starts. -/
theorem pipelineRoundTrip : Obligations.PipelineRoundTrip := by
  unfold Obligations.PipelineRoundTrip
  intro s l polls polls' p q n e d blockLen p0 p0' text pads hinv hb he hl hkey hpq hnmax hemax hpos hwidth htext hpads
    hbelow hfit hfit'
  have h : Carries s.cfg n blockLen text pads := ⟨hpos, hwidth, htext, hpads, hbelow, hnmax⟩
  have hn := hkey.modulus_pos
  obtain ⟨t, hencrypt, ht, hcfg, -⟩ := encryptText_ends hl hn hemax h hfit s ⟨hinv, hb, he⟩ rfl trivial
  obtain ⟨u, hdecrypt, -⟩ := decryptText_ends hl hkey hpq h hfit' t ht hcfg trivial
  refine ⟨_, _, t, u, hencrypt, rfl, fun v hv => ?_, hdecrypt⟩
  obtain ⟨b, -, rfl⟩ := List.mem_map.1 hv
  exact ⟨Int.natCast_nonneg _, by exact_mod_cast Nat.mod_lt _ hn⟩

end Sys2Proof.Machine
end

section
/-! The same operations on a message of any length (R184): one character or one block in DMEM at a time. -/

namespace Sys2Proof.Machine

section
variable {c : Config} {polls n blockLen p : Nat} {pads : Nat → Byte} (r : Reg)

/-- R171: the digits of each character, copied out. -/
theorem encodePieces_ends {text : List Nat} (htext : ∀ ch ∈ text, ch < 1000) (hfit : p + 3 ≤ c.dlen) :
    Ends c Any (encodePieces r polls p text) (.ok (digitString text)) Any := by
  induction text with
  | nil => exact .pure [] fun _ hs => hs
  | cons ch text ih =>
    obtain ⟨hch, htext⟩ := List.forall_mem_cons.1 htext
    have hone : digitString [ch] = digits ch 3 := List.flatMap_singleton _ _
    have hwrite := encodeMsg_holds (c := c) (p := p) (polls := polls) r (text := [ch]) (by simpa using hch)
      (by rwa [length_digitString])
    have hread := peekCells_ends (c := c) (p := p) (digits ch 3) (by rwa [length_digits])
    rw [hone] at hwrite
    rw [length_digits] at hread
    rw [digitString_cons]
    exact hwrite.bind (hread.bind ((ih htext).bind (.pure _ fun _ hs => hs)))

/-- R174: each field written by the host, and read by one DDEC. -/
theorem decodePieces_ends {w : BitVec 12} (hw : w ≠ 0) (hfit : p + w.toNat ≤ c.dlen) {fields : List (List Byte)}
    (hf : ∀ f ∈ fields, Spells c w.toNat f) :
    Ends c Any (decodePieces r polls w p fields) (.ok (fields.map fun f => (fieldValue f : Int))) Any := by
  induction fields with
  | nil => exact .pure [] fun _ hs => hs
  | cons f fields ih =>
    obtain ⟨hf, hfields⟩ := List.forall_mem_cons.1 hf
    have hfit' : p + f.length ≤ c.dlen := hf.length.symm ▸ hfit
    have hpoke := (pokeCells_ends [] f hfit').pre (P' := Any) fun s _ => holds_nil p s.dmem
    have hone : [f].flatten = f := List.flatten_singleton
    have hread := decodeFields_ends (p := p) (polls := polls) r hw (fields := [f]) (by simpa using hf) (by rwa [hone])
    rw [hone] at hread
    exact hpoke.bind ((pointTo_reading (by omega)).bind (hread.bind ((ih hfields).bind (.pure _ fun _ hs => hs))))

/-- R176: the digits of each value, copied out. -/
theorem reassemblePieces_ends {text : List Nat} (h : Carries c n blockLen text pads) (hfit : p + blockLen ≤ c.dlen)
    {fields : List (List Byte)} (hf : ∀ f ∈ fields, Spells c (BitVec.ofNat 12 blockLen).toNat f) :
    Ends c Any (reassemblePieces r polls blockLen p (fields.map fun f => (fieldValue f : Int))) (.ok fields.flatten)
      Any := by
  induction fields with
  | nil => exact .pure [] fun _ hs => hs
  | cons f fields ih =>
    obtain ⟨hf, hfields⟩ := List.forall_mem_cons.1 hf
    have hlen : f.length = blockLen := hf.length.trans h.toNat_width
    have hone : [f].flatten = f := List.flatten_singleton
    have hwrite := reassemble_ends (p := p) (polls := polls) r h (fields := [f]) (by simpa using hf)
      (by rwa [hone, hlen])
    have hread := peekCells_ends (c := c) (p := p) f (by rwa [hlen])
    rw [hone] at hwrite
    rw [hlen] at hread
    exact hwrite.bind (hread.bind ((ih hfields).bind (.pure _ fun _ hs => hs)))

end

section
variable {c : Config} {l : Layout} {polls p q n e d blockLen p0 : Nat} {text : List Nat} {pads : Nat → Byte}

/-- R178, R184: the ciphertext and the padding count are those of the message in DMEM. -/
theorem encryptPieces_ends (hl : l.distinct) (hn : 0 < n) (hemax : (e : Int) ≤ c.maxN)
    (h : Carries c n blockLen text pads) (hfit : p0 + max 3 blockLen ≤ c.dlen) :
    Ends c Any (encryptPieces l polls text ⟨n, e⟩ blockLen p0 pads)
      (.ok ((blocksOf text blockLen pads).map fun b => ((fieldValue b ^ e % n : Nat) : Int),
        paddingCount (digitString text).length blockLen)) Any := by
  have hblocks := decodePieces_ends (p := p0) (polls := polls) l.block h.width_ne_zero
    (by rw [h.toNat_width]; omega) h.spells_block
  have hcipher := cipher_ends (polls := polls) hl hn h.modulus hemax fieldValue (xs := blocksOf text blockLen pads)
    fun b hb => (h.spells_block b hb).fits
  exact (checkBlockLen_ends h.pos h.width).bind ((encodePieces_ends l.code h.codePoints (by omega)).bind
    (hblocks.bind (hcipher.bind (.pure _ fun _ hs => hs))))

theorem decryptPieces_ends (hl : l.distinct) (hkey : KeyInvariant p q n e d) (hpq : p ≠ q)
    (h : Carries c n blockLen text pads) (hfit : p0 + max 3 blockLen ≤ c.dlen) :
    Ends c Any (decryptPieces l polls ((blocksOf text blockLen pads).map fun b => ((fieldValue b ^ e % n : Nat) : Int))
        ⟨n, d⟩ (paddingCount (3 * text.length) blockLen) blockLen p0)
      (.ok (text.map Int.ofNat)) Any := by
  refine .of_legal fun hc => ?_
  obtain ⟨hspells, hvalues⟩ := spells_characters hc h.codePoints
  have hlen := (length_flatten_blocksOf text h.pos pads).trans (numBlocks_mul _ h.pos).1
  have hgrouping := checkGrouping_ends (c := c) (P := Any) text.length (paddingCount (3 * text.length) blockLen)
  have hcut : slices 3 (((blocksOf text blockLen pads).flatten.length - paddingCount (3 * text.length) blockLen) / 3)
      (blocksOf text blockLen pads).flatten = text.map (digits · 3) := by
    rw [hlen, Nat.add_sub_cancel, Nat.mul_div_cancel_left _ (by norm_num), flatten_blocksOf text h.pos,
      slices_digitString]
  have hdecode := decodePieces_ends (p := p0) (polls := polls) l.code (w := 3) (by decide)
    (show p0 + 3 ≤ c.dlen by omega) hspells
  rw [← hlen] at hgrouping
  rw [hvalues, ← hcut] at hdecode
  exact (checkBlockLen_ends h.pos h.width).bind ((cipher_decrypts hl hkey hpq h.modulus h.below).bind
    ((reassemblePieces_ends l.block h (by omega) h.spells_block).bind (hgrouping.bind hdecode)))

end

/-- Settles O58: each piece leaves a ready state, and what is carried over is the digits. -/
theorem piecewiseRoundTrip : Obligations.PiecewiseRoundTrip := by
  unfold Obligations.PiecewiseRoundTrip
  intro s l polls polls' p q n e d blockLen p0 p0' text pads hinv hb he hl hkey hpq hnmax hemax hpos hwidth htext hpads
    hbelow hfit hfit'
  have h : Carries s.cfg n blockLen text pads := ⟨hpos, hwidth, htext, hpads, hbelow, hnmax⟩
  obtain ⟨t, hencrypt, ht, hcfg, -⟩ :=
    encryptPieces_ends hl hkey.modulus_pos hemax h hfit s ⟨hinv, hb, he⟩ rfl trivial
  rw [length_digitString] at hencrypt
  obtain ⟨u, hdecrypt, -⟩ := decryptPieces_ends hl hkey hpq h hfit' t ht hcfg trivial
  exact ⟨_, _, t, u, hencrypt, rfl, rfl, hdecrypt⟩

end Sys2Proof.Machine
end

section
/-! Where a step stops, and what becomes of a pending fault (R201, R206). -/

namespace Sys2Proof.Machine

/-- R206: the turn of a step that answers exists, for the port refuses every other access. -/
theorem expressible_of_step {s t : State} (h : step s = .next t) : (nextTurn s).expressible = true := by
  rcases step_cases h with ⟨a, hn, ha⟩ | ⟨hn, -⟩ | ⟨hn, -⟩ <;> rw [hn]
  · by_contra hnot
    obtain ⟨r, hr⟩ := (portRefusesExactly a s.popTurn).2 (Bool.eq_false_iff.2 hnot)
    cases hr.symm.trans ha
  · rfl
  · rfl

/-- Settles O47: the engine and reset always have a turn, and the host has one for each access of the port. -/
theorem onlyInexpressibleAccessesStop : Obligations.OnlyInexpressibleAccessesStop := by
  unfold Obligations.OnlyInexpressibleAccessesStop
  exact fun s => ⟨fun ⟨_, h⟩ => expressible_of_step h, step_next_of_expressible⟩

/-- R29, R200: ERR and ERRCODE are both as they were, or both 0. -/
def KeepsOrClearsFault (s t : State) : Prop :=
  (t.err = s.err ∧ t.errcode = s.errcode) ∨ (t.err = false ∧ t.errcode = none)

theorem keepsOrClearsFault_resetBlock (s : State) : KeepsOrClearsFault s s.resetBlock := .inr ⟨rfl, rfl⟩

/-- R28: bit 2 of the word written to STATUS is the acknowledgement. -/
theorem keepsOrClearsFault_writeStatus (s : State) (v : Word) : KeepsOrClearsFault s (s.writeStatus v) := by
  rw [writeStatus_eq]
  cases v.getLsbD 2 with
  | false => exact .inl ⟨by simp, by simp⟩
  | true => exact .inr ⟨by simp, by simp⟩

/-- R190, R200: no access of the host sets a fault; of its writes, STATUS and CTRL can clear one. -/
theorem hostTurn_keepsOrClearsFault {a : HostAccess} {s t : State} (h : hostTurn a s = .next t) :
    KeepsOrClearsFault s t := by
  have kept {u : State} (herr : u.err = s.err) (hcode : u.errcode = s.errcode) : KeepsOrClearsFault s u :=
    .inl ⟨herr, hcode⟩
  rcases hostTurn_cases h with ⟨_, _, loc, _, _, rfl⟩ | ⟨_, _, v, loc, _, _, rfl⟩
  · exact kept rfl rfl
  · exact State.writeLoc_elim (P := KeepsOrClearsFault s) (ignored := kept rfl rfl) (rejected := kept rfl rfl)
      (issued := fun _ _ => kept rfl rfl) (status := keepsOrClearsFault_writeStatus s v) (inten := kept rfl rfl)
      (pointer := kept rfl rfl) (reset := keepsOrClearsFault_resetBlock s) (register := fun _ _ _ => kept rfl rfl)
      (cells := fun _ _ => kept rfl rfl) loc

/-- R20: while a fault is pending no command is in progress. -/
theorem State.Inv.idle_of_err {s : State} (h : s.Inv) (he : s.err = true) : s.busy = false := by
  refine Bool.eq_false_iff.2 fun hb => ?_
  obtain ⟨-, hnoErr⟩ := h.busyAlone hb
  cases hnoErr.symm.trans he

/-- R201: with a fault pending the engine is idle, so a step is the host's or a reset, and neither sets a fault. -/
theorem step_keepsOrClearsFault {s t : State} (hinv : s.Inv) (he : s.err = true) (h : step s = .next t) :
    KeepsOrClearsFault s t := by
  rcases step_cases h with ⟨a, -, ha⟩ | ⟨-, ht⟩ | ⟨-, rfl⟩
  · exact hostTurn_keepsOrClearsFault (s := s.popTurn) ha
  · rw [engineTurn_idle (hinv.popTurn.idle_of_err he)] at ht
    cases ht
    exact .inl ⟨rfl, rfl⟩
  · exact keepsOrClearsFault_resetBlock s.popTurn

/-- Settles O50: CMD rejects the word, no step sets another fault, and both resets answer `resetBlock`. -/
theorem faultsDoNotNest : Obligations.FaultsDoNotNest := by
  unfold Obligations.FaultsDoNotNest
  intro s hinv he
  refine ⟨fun v => hostTurn_cmd_rejected (.inr he) v, fun t h => ?_,
    ⟨s.resetBlock, rfl, hostTurn_softReset s rfl, zeroed_resetBlock s⟩⟩
  simpa only [KeepsOrClearsFault, he] using step_keepsOrClearsFault hinv he h

end Sys2Proof.Machine
end
